-- ==== Sys2Proof/Word.lean ====
section
/-! DEFINITION. The word types of the core (00_scope.md R8, R10): bytes, 16-bit words, 12-bit addresses, register indices. -/

namespace Sys2Proof

/-- An 8-bit value: a general register, a timer, a memory byte (R30, R42, R70). -/
abbrev Byte := BitVec 8

/-- A 16-bit value: the instruction word, pc, I, a stack slot, the keypad vector (R36, R37, R39, R45, R100). -/
abbrev Word := BitVec 16

/-- A 12-bit address immediate nnn, or FONT_BASE (R101, R9). -/
abbrev Addr := BitVec 12

/-- A register index 0..15, naming V0 to VF (R30, R102). -/
abbrev Reg := Fin 16

end Sys2Proof
end

