-- ==== Sys2Proof/Syntax.lean ====
section
/-! DEFINITION. The instruction set: one constructor for each of the 35 rows of spec/opcode_table.json (30_encoding.md
R117). Operands are the fields of R101 that the row's pattern names. -/

namespace Sys2Proof

inductive Instr where
  /-- 00E0 CLS (R231) -/
  | cls
  /-- 00EE RET (R130) -/
  | ret
  /-- 0nnn SYS nnn (R134): named, and every such word raises UnknownOpcode -/
  | sys (nnn : Addr)
  /-- 1nnn JP nnn (R131) -/
  | jp (nnn : Addr)
  /-- 2nnn CALL nnn (R132) -/
  | call (nnn : Addr)
  /-- 3xkk SE Vx, kk (R151) -/
  | seImm (x : Reg) (kk : Byte)
  /-- 4xkk SNE Vx, kk (R152) -/
  | sneImm (x : Reg) (kk : Byte)
  /-- 5xy0 SE Vx, Vy (R153) -/
  | seReg (x y : Reg)
  /-- 6xkk LD Vx, kk (R171) -/
  | ldImm (x : Reg) (kk : Byte)
  /-- 7xkk ADD Vx, kk (R172) -/
  | addImm (x : Reg) (kk : Byte)
  /-- 8xy0 LD Vx, Vy (R173) -/
  | ldReg (x y : Reg)
  /-- 8xy1 OR Vx, Vy (R174) -/
  | orReg (x y : Reg)
  /-- 8xy2 AND Vx, Vy (R175) -/
  | andReg (x y : Reg)
  /-- 8xy3 XOR Vx, Vy (R176) -/
  | xorReg (x y : Reg)
  /-- 8xy4 ADD Vx, Vy (R177) -/
  | addReg (x y : Reg)
  /-- 8xy5 SUB Vx, Vy (R178) -/
  | sub (x y : Reg)
  /-- 8xy6 SHR Vx (R179); y is decoded and ignored (R109) -/
  | shr (x y : Reg)
  /-- 8xy7 SUBN Vx, Vy (R180) -/
  | subn (x y : Reg)
  /-- 8xyE SHL Vx (R181); y is decoded and ignored (R109) -/
  | shl (x y : Reg)
  /-- 9xy0 SNE Vx, Vy (R154) -/
  | sneReg (x y : Reg)
  /-- Annn LD I, nnn (R200) -/
  | ldI (nnn : Addr)
  /-- Bnnn JP V0, nnn (R133) -/
  | jpV0 (nnn : Addr)
  /-- Cxkk RND Vx, kk (R182) -/
  | rnd (x : Reg) (kk : Byte)
  /-- Dxyn DRW Vx, Vy, n (R232); n is a row count 0..15 -/
  | drw (x y : Reg) (n : Fin 16)
  /-- Ex9E SKP Vx (R254) -/
  | skp (x : Reg)
  /-- ExA1 SKNP Vx (R255) -/
  | sknp (x : Reg)
  /-- Fx07 LD Vx, DT (R250) -/
  | ldVxDt (x : Reg)
  /-- Fx0A LD Vx, K (R256) -/
  | ldVxK (x : Reg)
  /-- Fx15 LD DT, Vx (R251) -/
  | ldDtVx (x : Reg)
  /-- Fx18 LD ST, Vx (R252) -/
  | ldStVx (x : Reg)
  /-- Fx1E ADD I, Vx (R202) -/
  | addI (x : Reg)
  /-- Fx29 LD F, Vx (R204) -/
  | ldF (x : Reg)
  /-- Fx33 LD B, Vx (R205) -/
  | ldB (x : Reg)
  /-- Fx55 LD [I], Vx (R206) -/
  | ldMemVx (x : Reg)
  /-- Fx65 LD Vx, [I] (R207) -/
  | ldVxMem (x : Reg)
deriving DecidableEq, Repr

end Sys2Proof
end

