-- ==== Sys2Proof/Decode.lean ====
section
/-! DEFINITION. The decoder (30_encoding.md R100 to R108), total on every word and on every byte list, and after it the
encoder, written from the same tables. -/

namespace Sys2Proof

/-- Why the decoder refuses. -/
inductive DecodeError where
  /-- the word selects no instruction (R108); w is the whole word -/
  | unknownOpcode (w : Word)
  /-- fewer than the two bytes every instruction has (R100) -/
  | truncated
deriving DecidableEq, Repr

/-- family = w[15:12] (R101) -/
def familyOf (w : Word) : BitVec 4 := w.extractLsb' 12 4

/-- x = w[11:8] (R101) -/
def xOf (w : Word) : Reg := (w.extractLsb' 8 4).toFin

/-- y = w[7:4] (R101) -/
def yOf (w : Word) : Reg := (w.extractLsb' 4 4).toFin

/-- n = w[3:0] as the selector of families 5, 8 and 9 (R101) -/
def selectorOf (w : Word) : BitVec 4 := w.extractLsb' 0 4

/-- n = w[3:0] as the row count of Dxyn (R101, R102) -/
def nOf (w : Word) : Fin 16 := (w.extractLsb' 0 4).toFin

/-- kk = w[7:0] (R101) -/
def kkOf (w : Word) : Byte := w.extractLsb' 0 8

/-- nnn = w[11:0] (R101) -/
def nnnOf (w : Word) : Addr := w.extractLsb' 0 12

/-- Family 0x0 is decoded on the whole word (R104); the other words of the family are the SYS row (R110, R134). -/
def decodeFamily0 (w : Word) : Instr :=
  if w = 0x00E0#16 then .cls
  else if w = 0x00EE#16 then .ret
  else .sys (nnnOf w)

/-- Families 0x5 and 0x9: n must be 0 (R103, R108). -/
def decodeNeedsZero (w : Word) (i : Instr) : Except DecodeError Instr :=
  if selectorOf w = 0x0#4 then .ok i else .error (.unknownOpcode w)

/-- Family 0x8 is decoded on n (R105). -/
def decodeFamily8 (w : Word) : Except DecodeError Instr :=
  match selectorOf w with
  | 0x0#4 => .ok (.ldReg (xOf w) (yOf w))
  | 0x1#4 => .ok (.orReg (xOf w) (yOf w))
  | 0x2#4 => .ok (.andReg (xOf w) (yOf w))
  | 0x3#4 => .ok (.xorReg (xOf w) (yOf w))
  | 0x4#4 => .ok (.addReg (xOf w) (yOf w))
  | 0x5#4 => .ok (.sub (xOf w) (yOf w))
  | 0x6#4 => .ok (.shr (xOf w) (yOf w))
  | 0x7#4 => .ok (.subn (xOf w) (yOf w))
  | 0xE#4 => .ok (.shl (xOf w) (yOf w))
  | _ => .error (.unknownOpcode w)

/-- Family 0xE is decoded on kk (R106). -/
def decodeFamilyE (w : Word) : Except DecodeError Instr :=
  match kkOf w with
  | 0x9E#8 => .ok (.skp (xOf w))
  | 0xA1#8 => .ok (.sknp (xOf w))
  | _ => .error (.unknownOpcode w)

/-- Family 0xF is decoded on kk (R107). -/
def decodeFamilyF (w : Word) : Except DecodeError Instr :=
  match kkOf w with
  | 0x07#8 => .ok (.ldVxDt (xOf w))
  | 0x0A#8 => .ok (.ldVxK (xOf w))
  | 0x15#8 => .ok (.ldDtVx (xOf w))
  | 0x18#8 => .ok (.ldStVx (xOf w))
  | 0x1E#8 => .ok (.addI (xOf w))
  | 0x29#8 => .ok (.ldF (xOf w))
  | 0x33#8 => .ok (.ldB (xOf w))
  | 0x55#8 => .ok (.ldMemVx (xOf w))
  | 0x65#8 => .ok (.ldVxMem (xOf w))
  | _ => .error (.unknownOpcode w)

/-- The decoder of one fetched word: dispatch on the family (R103), then on the secondary selector. -/
def decodeWord (w : Word) : Except DecodeError Instr :=
  match familyOf w with
  | 0x0#4 => .ok (decodeFamily0 w)
  | 0x1#4 => .ok (.jp (nnnOf w))
  | 0x2#4 => .ok (.call (nnnOf w))
  | 0x3#4 => .ok (.seImm (xOf w) (kkOf w))
  | 0x4#4 => .ok (.sneImm (xOf w) (kkOf w))
  | 0x5#4 => decodeNeedsZero w (.seReg (xOf w) (yOf w))
  | 0x6#4 => .ok (.ldImm (xOf w) (kkOf w))
  | 0x7#4 => .ok (.addImm (xOf w) (kkOf w))
  | 0x8#4 => decodeFamily8 w
  | 0x9#4 => decodeNeedsZero w (.sneReg (xOf w) (yOf w))
  | 0xA#4 => .ok (.ldI (nnnOf w))
  | 0xB#4 => .ok (.jpV0 (nnnOf w))
  | 0xC#4 => .ok (.rnd (xOf w) (kkOf w))
  | 0xD#4 => .ok (.drw (xOf w) (yOf w) (nOf w))
  | 0xE#4 => decodeFamilyE w
  | _ => decodeFamilyF w

/-- The word of two bytes in memory order: big-endian, the first byte is the high one (R74). -/
def wordOfBytes (hi lo : Byte) : Word := hi ++ lo

/-- The decoder on bytes: it takes the first two and hands back the rest (R100: one length). -/
def decode : List Byte → Except DecodeError (Instr × List Byte)
  | hi :: lo :: rest =>
    match decodeWord (wordOfBytes hi lo) with
    | .ok i => .ok (i, rest)
    | .error e => .error e
  | [_] => .error .truncated
  | [] => .error .truncated

/-- The 4 bits of a register index. -/
def regBits (x : Reg) : BitVec 4 := .ofFin x

/-- A word of format nnn (R101). -/
def packNnn (family : BitVec 4) (nnn : Addr) : Word := family ++ nnn

/-- A word of format xkk (R101). -/
def packXkk (family : BitVec 4) (x : Reg) (kk : Byte) : Word := family ++ regBits x ++ kk

/-- A word of format xyn (R101). -/
def packXyn (family : BitVec 4) (x y : Reg) (n : BitVec 4) : Word := family ++ regBits x ++ regBits y ++ n

/-- The encoder: the word of an instruction, from the encodings of opcode_table.json. -/
def encode : Instr → Word
  | .cls => 0x00E0#16
  | .ret => 0x00EE#16
  | .sys nnn => packNnn 0x0 nnn
  | .jp nnn => packNnn 0x1 nnn
  | .call nnn => packNnn 0x2 nnn
  | .seImm x kk => packXkk 0x3 x kk
  | .sneImm x kk => packXkk 0x4 x kk
  | .seReg x y => packXyn 0x5 x y 0x0
  | .ldImm x kk => packXkk 0x6 x kk
  | .addImm x kk => packXkk 0x7 x kk
  | .ldReg x y => packXyn 0x8 x y 0x0
  | .orReg x y => packXyn 0x8 x y 0x1
  | .andReg x y => packXyn 0x8 x y 0x2
  | .xorReg x y => packXyn 0x8 x y 0x3
  | .addReg x y => packXyn 0x8 x y 0x4
  | .sub x y => packXyn 0x8 x y 0x5
  | .shr x y => packXyn 0x8 x y 0x6
  | .subn x y => packXyn 0x8 x y 0x7
  | .shl x y => packXyn 0x8 x y 0xE
  | .sneReg x y => packXyn 0x9 x y 0x0
  | .ldI nnn => packNnn 0xA nnn
  | .jpV0 nnn => packNnn 0xB nnn
  | .rnd x kk => packXkk 0xC x kk
  | .drw x y n => packXyn 0xD x y (regBits n)
  | .skp x => packXkk 0xE x 0x9E
  | .sknp x => packXkk 0xE x 0xA1
  | .ldVxDt x => packXkk 0xF x 0x07
  | .ldVxK x => packXkk 0xF x 0x0A
  | .ldDtVx x => packXkk 0xF x 0x15
  | .ldStVx x => packXkk 0xF x 0x18
  | .addI x => packXkk 0xF x 0x1E
  | .ldF x => packXkk 0xF x 0x29
  | .ldB x => packXkk 0xF x 0x33
  | .ldMemVx x => packXkk 0xF x 0x55
  | .ldVxMem x => packXkk 0xF x 0x65

/-- The two bytes of a word in memory order (R74). -/
def bytesOfWord (w : Word) : List Byte := [w.extractLsb' 8 8, w.extractLsb' 0 8]

/-- The bytes of an instruction as memory holds them. -/
def encodeBytes (i : Instr) : List Byte := bytesOfWord (encode i)

/-- The instruction word of a table row: its low nbits bits are w's, the rest 0. -/
def tableWord (nbits w : Nat) : Word := BitVec.ofNat 16 (w % 2 ^ nbits)

/-- The instruction the decoder reads from a table row's bits, laid out as the hardware stores them. -/
def decodeTableWord (nbits w : Nat) : Option Instr :=
  match decode (bytesOfWord (tableWord nbits w)) with
  | .ok (i, _) => some i
  | .error _ => none

end Sys2Proof
end

