-- ==== Sys2Proof/Config.lean ====
section
/-! DEFINITION. The parameters of 00_scope.md R9: the ones that are data form `Config`, which the state carries as the
model's argument; the random generator RNG is open and has no default, so it is a free function with no body. -/

namespace Sys2Proof

/-- ADDR_MODE: what an address of 0x1000 or more does (R9, R72). -/
inductive AddrMode where
  /-- it raises AddressOutOfRange (the default) -/
  | fault
  /-- it is taken modulo 4096 -/
  | mask12
deriving DecidableEq, Repr

/-- The data parameters of R9. They are fixed for a machine: no instruction and no command changes them. -/
structure Config where
  /-- ADDR_MODE -/
  addrMode : AddrMode
  /-- FONT_BASE, the first byte of glyph 0 -/
  fontBase : Addr
  /-- FONT_DATA, 16 glyphs of 5 bytes in digit order (R83, R84) -/
  fontData : Vector Byte 80
  /-- FX1E_VF, whether Fx1E writes VF (R203) -/
  fx1eVf : Bool
deriving DecidableEq, Repr

/-- R9 bounds FONT_BASE: the font lies below 0x200. -/
def Config.wf (c : Config) : Bool := decide (c.fontBase.toNat + 80 ≤ 0x200)

/-- RNG.seed of R9 and R322: OPEN in the spec, so it has no body and any proof holds for every generator.
The generator's state type S is coded as Nat (log entry 2). -/
opaque Config.rngSeed : Nat → Nat

/-- RNG.next of R9 and R182: the byte drawn and the generator's next state. OPEN in the spec: no body (log entry 2). -/
opaque Config.rngNext : Nat → Byte × Nat

/-- The seed the host passed to the RESET that `State.reset` stands for (R322 leaves the choice to the host): a free
value, no body (log entry 3). -/
opaque Config.hostSeed : Nat

end Sys2Proof
end

