-- ==== Sys2Proof/Machine/Defaults.lean ====
section
/-! DEFINITION. The default values of the parameters of 00_scope.md R9: the values this hardware takes unless it is
configured otherwise. -/

namespace Sys2Proof.Machine

/-- The default FONT_DATA (R84), the customary CHIP-8 font. PRESUMED: the spec supplies it from general knowledge
(log entry 4). One glyph of five bytes a line, digits 0 to F. -/
def defaultFontData : Vector Byte 80 :=
  #v[0xF0, 0x90, 0x90, 0x90, 0xF0,
     0x20, 0x60, 0x20, 0x20, 0x70,
     0xF0, 0x10, 0xF0, 0x80, 0xF0,
     0xF0, 0x10, 0xF0, 0x10, 0xF0,
     0x90, 0x90, 0xF0, 0x10, 0x10,
     0xF0, 0x80, 0xF0, 0x10, 0xF0,
     0xF0, 0x80, 0xF0, 0x90, 0xF0,
     0xF0, 0x10, 0x20, 0x40, 0x40,
     0xF0, 0x90, 0xF0, 0x90, 0xF0,
     0xF0, 0x90, 0xF0, 0x10, 0xF0,
     0xF0, 0x90, 0xF0, 0x90, 0x90,
     0xE0, 0x90, 0xE0, 0x90, 0xE0,
     0xF0, 0x80, 0x80, 0x80, 0xF0,
     0xE0, 0x90, 0x90, 0x90, 0xE0,
     0xF0, 0x80, 0xF0, 0x80, 0xF0,
     0xF0, 0x80, 0xF0, 0x80, 0x80]

/-- The default parameters (R9): ADDR_MODE = fault, FONT_BASE = 0x050, FX1E_VF = false (log entries 1, 5 and 6). -/
def defaultConfig : Config where
  addrMode := .fault
  fontBase := 0x050
  fontData := defaultFontData
  fx1eVf := false

end Sys2Proof.Machine
end

