-- ==== Sys2Proof/Machine/Memory.lean ====
section
/-! DEFINITION. The memory M of 20_memory.md: 4096 bytes, kept as the list of the bytes that differ from their reset
contents, in rising order of address; and EA, the one way to an address. -/

namespace Sys2Proof.Machine

/-- M as plain data: (address, byte) pairs in canonical form (`Memory.wf`). -/
abbrev Memory := List Host.Cell

/-- What an unlisted address reads as: its contents after RESET, which are FONT_DATA in the font range and 0 elsewhere
(R52, R321; log entry 8). -/
def Memory.unlisted (c : Config) (a : Nat) : Byte :=
  if c.fontBase.toNat ≤ a then c.fontData.toList.getD (a - c.fontBase.toNat) 0 else 0

/-- The listed byte at an address. -/
def Memory.find : Memory → Nat → Option Byte
  | [], _ => none
  | (k, b) :: rest, a => if k = a then some b else Memory.find rest a

/-- M[a] for a physical address (R70). -/
def Memory.read (c : Config) (m : Memory) (a : Nat) : Byte := (Memory.find m a).getD (Memory.unlisted c a)

/-- The list without an entry at a. -/
def Memory.erase : Memory → Nat → Memory
  | [], _ => []
  | (k, b) :: rest, a => if k = a then Memory.erase rest a else (k, b) :: Memory.erase rest a

/-- The list with b at a, in rising order. -/
def Memory.insert : Memory → Nat → Byte → Memory
  | [], a, b => [(a, b)]
  | (k, v) :: rest, a, b =>
    if a < k then (a, b) :: (k, v) :: rest
    else if a = k then (a, b) :: rest
    else (k, v) :: Memory.insert rest a b

/-- M[a] <- b (R70): writing what an unlisted address reads as removes the entry. -/
def Memory.write (c : Config) (m : Memory) (a : Nat) (b : Byte) : Memory :=
  if b = Memory.unlisted c a then Memory.erase m a else Memory.insert m a b

/-- The writes M[a] <- b for each address and its byte, in order (R15). -/
def Memory.writeAll (c : Config) : Memory → List Nat → List Byte → Memory
  | m, a :: as, b :: bs => Memory.writeAll c (Memory.write c m a b) as bs
  | m, [], _ => m
  | m, _ :: _, [] => m

/-- The canonical form from an address on: addresses strictly rising, below 4096, and no entry that repeats the reset
contents. -/
def Memory.wfFrom (c : Config) : Nat → Memory → Bool
  | _, [] => true
  | lo, (a, b) :: rest =>
    decide (lo ≤ a) && decide (a < 4096) && decide (b ≠ Memory.unlisted c a) && Memory.wfFrom c (a + 1) rest

/-- The canonical form of M. -/
def Memory.wf (c : Config) (m : Memory) : Bool := Memory.wfFrom c 0 m

/-- EA(a) of R72: the physical address of an unbounded address, or none where it raises AddressOutOfRange(a). -/
def ea (mode : AddrMode) (a : Nat) : Option Nat :=
  if a < 4096 then some a
  else match mode with
    | .fault => none
    | .mask12 => some (a % 4096)

/-- The addresses base, base + 1, ... of an access of n bytes, lowest offset first and never truncated (R73, R78). -/
def span (base : Nat) : Nat → List Nat
  | 0 => []
  | n + 1 => base :: span (base + 1) n

/-- EA of each address in order: the physical addresses, or the first address that is out of range (R291). -/
def eaAll (mode : AddrMode) : List Nat → Except Nat (List Nat)
  | [] => .ok []
  | a :: as =>
    match ea mode a with
    | none => .error a
    | some p =>
      match eaAll mode as with
      | .ok ps => .ok (p :: ps)
      | .error e => .error e

end Sys2Proof.Machine
end

