-- ==== Sys2Proof/Machine/State.lean ====
section
/-! DEFINITION. The state of the block (10_state.md), every field under the spec's own name, the reasons a step could
stop, and the state after RESET (70_reset_and_hazards.md R320). -/

namespace Sys2Proof.Machine

/-- FB (R43): row y is 64 bits, bit x of it is the pixel FB[y][x]. -/
abbrev FrameBuffer := Vector (BitVec 64) 32

/-- Everything the spec gives the machine (R52), and the parameters it is configured with (R9). -/
structure State where
  /-- V[0..15] (R30) -/
  v : Vector Byte 16
  /-- I (R36) -/
  i : Word
  /-- pc (R37) -/
  pc : Word
  /-- S[0..15] (R39) -/
  stack : Vector Word 16
  /-- SP, 0..16 (R39) -/
  sp : Fin 17
  /-- DT (R42) -/
  dt : Byte
  /-- ST (R42) -/
  st : Byte
  /-- M (R70), in the canonical form of `Memory.wf` -/
  mem : List Host.Cell
  /-- FB (R43) -/
  fb : Vector (BitVec 64) 32
  /-- K, key k at bit k (R12, R45) -/
  k : Word
  /-- KWAIT (R46) -/
  kwait : Bool
  /-- KWAIT_X (R46) -/
  kwaitX : Reg
  /-- KPREV (R46) -/
  kprev : Word
  /-- IR (R47) -/
  ir : Word
  /-- ERR_CODE (R48, R280) -/
  errCode : BitVec 3
  /-- ERR_PC (R48) -/
  errPc : Word
  /-- ERR_INFO (R48) -/
  errInfo : BitVec 32
  /-- RNGS (R50), the state type S coded as Nat (log entry 2) -/
  rngs : Nat
  /-- the parameters of R9: the model's own field, written by nothing -/
  cfg : Config
deriving DecidableEq, Repr

/-- The reasons a step stops with a fault: none. Every error of 60_exceptions.md R280 is latched, and the step answers a
next state (R288 to R290, log entry 7); R331: the block never stops by itself. Nobody raises a fault, so there is nothing
to call safe or unsafe. -/
inductive Fault where
deriving DecidableEq, Repr

/-- The reasons a step is refused. -/
inductive Refusal where
  /-- an instruction with no meaning yet; raised only by an arm of `exec` that rejects by name, and no arm does: safe -/
  | notModelled (mnemonic : String)
deriving DecidableEq, Repr

/-- What a step or a meaning answers. -/
abbrev Result := Host.Outcome State Fault Refusal

/-- RESET(seed) on a block with the parameters c (R320 to R323): every field of R52 at its reset value. Memory lists
nothing, which reads as 0 outside the font range and as FONT_DATA in it. -/
def State.resetWith (c : Config) (seed : Nat) : State where
  v := Vector.replicate 16 0
  i := 0
  pc := 0x200
  stack := Vector.replicate 16 0
  sp := 0
  dt := 0
  st := 0
  mem := []
  fb := Vector.replicate 32 0
  k := 0
  kwait := false
  kwaitX := 0
  kprev := 0
  ir := 0
  errCode := 0
  errPc := 0
  errInfo := 0
  rngs := Config.rngSeed seed
  cfg := c

/-- The machine right after reset: the default parameters (R9), and a seed the host chose (R322, log entry 3). -/
def State.reset : State := State.resetWith defaultConfig Config.hostSeed

end Sys2Proof.Machine
end

