-- ==== Sys2Proof/Machine/Ops.lean ====
section
/-! DEFINITION. The named operations over registers, stack, memory and pc, and the one operation that takes an error
(60_exceptions.md R288, R289, R292) with the host's return from it (R314). -/

namespace Sys2Proof.Machine

/-! Registers -/

/-- V[x] (R30, R31). -/
def State.reg (s : State) (x : Reg) : Byte := s.v[x]

/-- V[x] <- b (R31). -/
def State.setReg (s : State) (x : Reg) (b : Byte) : State := { s with v := s.v.set x b }

/-- VF <- f, the flag write, listed after every other register write (R17, R34, R184). -/
def State.setFlag (s : State) (f : Byte) : State := s.setReg 15 f

/-- V[k], V[k+1], ... <- the bytes, in order. -/
def setRegsFrom (v : Vector Byte 16) : Nat → List Byte → Vector Byte 16
  | _, [] => v
  | k, b :: bs => setRegsFrom (v.setIfInBounds k b) (k + 1) bs

/-! Program counter -/

/-- next = trunc_16(pc + 2) (R16, R111). -/
def State.next (s : State) : Word := s.pc + 2

/-- pc <- target (R37). -/
def State.jumpTo (s : State) (target : Word) : State := { s with pc := target }

/-- pc <- next, the end of a sequential instruction (R112). -/
def State.advance (s : State) : State := s.jumpTo s.next

/-- The skip rule (R150): next + 2 if the condition holds, else next. -/
def State.skipIf (s : State) (c : Bool) : State := s.jumpTo (if c then s.next + 2 else s.next)

/-! Call stack -/

/-- Push(v) (R40); none where it raises StackOverflow(v). -/
def State.push (s : State) (val : Word) : Option State :=
  if h : s.sp.val < 16 then
    some { s with stack := s.stack.set s.sp.val val h, sp := ⟨s.sp.val + 1, by omega⟩ }
  else none

/-- Pop() (R41), the popped word and the state after; none where it raises StackUnderflow(0). The slot keeps its value. -/
def State.pop (s : State) : Option (Word × State) :=
  if h : 0 < s.sp.val then
    some (s.stack[s.sp.val - 1]'(by omega), { s with sp := ⟨s.sp.val - 1, by omega⟩ })
  else none

/-! Memory -/

/-- M[a] for a physical address a (R70). -/
def State.byteAt (s : State) (a : Nat) : Byte := Memory.read s.cfg s.mem a

/-- EA in the block's ADDR_MODE (R72). -/
def State.ea (s : State) (a : Nat) : Option Nat := Sys2Proof.Machine.ea s.cfg.addrMode a

/-- The n bytes MemRead from base on (R13, R78), or the first address out of range. -/
def State.loadFrom (s : State) (base n : Nat) : Except Nat (List Byte) :=
  match eaAll s.cfg.addrMode (span base n) with
  | .ok ps => .ok (ps.map s.byteAt)
  | .error a => .error a

/-- The memory after MemWrite of the bytes from base on (R13, R78), or the first address out of range. -/
def State.storeFrom (s : State) (base : Nat) (bs : List Byte) : Except Nat Memory :=
  match eaAll s.cfg.addrMode (span base bs.length) with
  | .ok ps => .ok (Memory.writeAll s.cfg s.mem ps bs)
  | .error a => .error a

/-- FetchWord(pc) (R76): EA(pc) is checked first, then EA(pc + 1); big-endian (R74). -/
def State.fetchWord (s : State) : Except Nat Word :=
  match s.ea s.pc.toNat with
  | none => .error s.pc.toNat
  | some hi =>
    match s.ea (s.pc.toNat + 1) with
    | none => .error (s.pc.toNat + 1)
    | some lo => .ok (wordOfBytes (s.byteAt hi) (s.byteAt lo))

/-! Errors -/

/-- The error kinds of R280. -/
inductive ErrorKind where
  | unknownOpcode
  | stackOverflow
  | stackUnderflow
  | addressOutOfRange
  | keyOutOfRange
deriving DecidableEq, Repr

/-- The code latched into ERR_CODE (R280). RomOverflow, code 6, is returned by LOAD_ROM and never latched (R286). -/
def errorCodeOf : ErrorKind → BitVec 3
  | .unknownOpcode => 1
  | .stackOverflow => 2
  | .stackUnderflow => 3
  | .addressOutOfRange => 4
  | .keyOutOfRange => 5

/-- TAKING AN ERROR (R288, R289, R292): ERR_CODE, ERR_PC and ERR_INFO are written, ERR_PC with the raising step's pc;
nothing else changes, pc included. It is applied to the state before the step, so the step commits nothing else. -/
def State.raise (s : State) (kind : ErrorKind) (info : BitVec 32) : State :=
  { s with errCode := errorCodeOf kind, errPc := s.pc, errInfo := info }

/-- raise AddressOutOfRange(a), a being the unbounded address that failed (R284). -/
def State.raiseAddress (s : State) (a : Nat) : State := s.raise .addressOutOfRange (BitVec.ofNat 32 a)

/-- The host's return from a latched error (R314): pc moves past the instruction that raised and the error is cleared.
Its caller checks that an error is latched. -/
def State.clearError (s : State) : State :=
  { s with pc := s.errPc + 2, errCode := 0, errPc := 0, errInfo := 0 }

/-! Framebuffer -/

/-- FB[py][px] (R43). -/
def pixelOf (fb : FrameBuffer) (px : Fin 64) (py : Fin 32) : Bool := (fb[py]).getLsbD px

/-- FB[py][px] <- p (R43). -/
def setPixel (fb : FrameBuffer) (px : Fin 64) (py : Fin 32) (p : Bool) : FrameBuffer :=
  fb.set py (if p then fb[py] ||| BitVec.twoPow 64 px else fb[py] &&& ~~~(BitVec.twoPow 64 px))

/-- FB[py][px] of the state. -/
def State.pixel (s : State) (px : Fin 64) (py : Fin 32) : Bool := pixelOf s.fb px py

end Sys2Proof.Machine
end

