-- ==== Sys2Proof/Machine/Flags.lean ====
section
/-! DEFINITION. The flag computations, all of them: VF is the only flag (10_state.md R34, R35). Each is computed from the
exact pre-step operands (42_alu.md R170). -/

namespace Sys2Proof.Machine

/-- A flag value: 1 or 0. -/
def flagOf (c : Bool) : Byte := if c then 1 else 0

/-- 8xy4 (R177): the exact sum exceeds 255. -/
def carryFlag (a b : Byte) : Byte := flagOf (decide (a.toNat + b.toNat > 255))

/-- 8xy5 and, with the operands exchanged, 8xy7 (R178, R180): a > b strictly. -/
def greaterFlag (a b : Byte) : Byte := flagOf (decide (a.toNat > b.toNat))

/-- 8xy6 (R179): the bit shifted out, old bit 0. -/
def shiftedOutRight (a : Byte) : Byte := flagOf (a.getLsbD 0)

/-- 8xyE (R181): the bit shifted out, old bit 7. -/
def shiftedOutLeft (a : Byte) : Byte := flagOf (a.getLsbD 7)

/-- Fx1E under FX1E_VF (R203): the exact sum exceeds 0xFFF. -/
def indexOverflowFlag (i : Word) (b : Byte) : Byte := flagOf (decide (i.toNat + b.toNat > 0xFFF))

/-- Dxyn (R232, R234): some pixel went from 1 to 0. -/
def collisionFlag (collide : Bool) : Byte := flagOf collide

end Sys2Proof.Machine
end

