-- ==== Sys2Proof/Machine/Operands.lean ====
section
/-! DEFINITION. The operand forms (30_encoding.md R102, 43_index_memory.md R201): besides registers and the byte immediate,
the zero-extended address, the bytes at I, the key index, the glyph address and the decimal digits. -/

namespace Sys2Proof.Machine

/-- zext_16(nnn) (R102, R131). -/
def zext16 (nnn : Addr) : Word := nnn.setWidth 16

/-- V0 + nnn, the target of Bnnn (R133): at most 0x10FE, so nothing is truncated. -/
def State.jumpOffset (s : State) (nnn : Addr) : Word := BitVec.ofNat 16 ((s.reg 0).toNat + nnn.toNat)

/-- The n bytes at I, I+1, ... (R201), or the first address out of range. -/
def State.loadAtI (s : State) (n : Nat) : Except Nat (List Byte) := s.loadFrom s.i.toNat n

/-- The memory after the bytes are stored at I, I+1, ... (R201), or the first address out of range. -/
def State.storeAtI (s : State) (bs : List Byte) : Except Nat Memory := s.storeFrom s.i.toNat bs

/-- V[0], ..., V[x] (R206). -/
def State.regsUpTo (s : State) (x : Reg) : List Byte := s.v.toList.take (x.val + 1)

/-- The key index V[x] of a key instruction (R253), none where it raises KeyOutOfRange(V[x]). -/
def State.keyIndex (s : State) (x : Reg) : Option (Fin 16) :=
  if h : (s.reg x).toNat < 16 then some ⟨(s.reg x).toNat, h⟩ else none

/-- K[key] (R45). -/
def State.keyDown (s : State) (key : Fin 16) : Bool := s.k.getLsbD key

/-- The address of the glyph for the low nibble of b (R204). -/
def glyphAddress (c : Config) (b : Byte) : Word := BitVec.ofNat 16 (c.fontBase.toNat + 5 * (b.toNat % 16))

/-- The hundreds, tens and ones digits of b (R205). -/
def bcdDigits (b : Byte) : List Byte :=
  [BitVec.ofNat 8 (b.toNat / 100), BitVec.ofNat 8 (b.toNat / 10 % 10), BitVec.ofNat 8 (b.toNat % 10)]

/-- The index of the lowest set bit of a key vector, counting up from key (R257); fuel is how many keys are left. -/
def lowestKeyFrom (t : Word) (key : Nat) : Nat → Option Nat
  | 0 => none
  | fuel + 1 => if t.getLsbD key then some key else lowestKeyFrom t (key + 1) fuel

/-- The smallest i with T[i] = 1 (R257). -/
def lowestKey (t : Word) : Option Nat := lowestKeyFrom t 0 16

/-- T = K AND (NOT KPREV): the keys that went from released to pressed (R257). -/
def State.newKeys (s : State) : Word := s.k &&& ~~~s.kprev

end Sys2Proof.Machine
end

