-- ==== Sys2Proof/Machine/Alu.lean ====
section
/-! DEFINITION. Register loads, arithmetic, logic, shifts and random (42_alu.md): 6xkk, 7xkk, 8xy0 to 8xyE, Cxkk. -/

namespace Sys2Proof.Machine

/-- V[x] <- b; pc <- next. -/
def State.finish (s : State) (x : Reg) (b : Byte) : State := (s.setReg x b).advance

/-- V[x] <- b; V[15] <- f; pc <- next: the flag is written last, so it wins when x = F (R184). -/
def State.finishFlag (s : State) (x : Reg) (b f : Byte) : State := ((s.setReg x b).setFlag f).advance

/-- 6xkk LD Vx, kk (R171). -/
def execLdImm (x : Reg) (kk : Byte) (s : State) : Result := .next (s.finish x kk)

/-- 7xkk ADD Vx, kk (R172): modulo 256, no flag. -/
def execAddImm (x : Reg) (kk : Byte) (s : State) : Result := .next (s.finish x (s.reg x + kk))

/-- 8xy0 LD Vx, Vy (R173). -/
def execLdReg (x y : Reg) (s : State) : Result := .next (s.finish x (s.reg y))

/-- 8xy1 OR Vx, Vy (R174): no flag. -/
def execOrReg (x y : Reg) (s : State) : Result := .next (s.finish x (s.reg x ||| s.reg y))

/-- 8xy2 AND Vx, Vy (R175): no flag. -/
def execAndReg (x y : Reg) (s : State) : Result := .next (s.finish x (s.reg x &&& s.reg y))

/-- 8xy3 XOR Vx, Vy (R176): no flag. -/
def execXorReg (x y : Reg) (s : State) : Result := .next (s.finish x (s.reg x ^^^ s.reg y))

/-- 8xy4 ADD Vx, Vy (R177): VF = carry. -/
def execAddReg (x y : Reg) (s : State) : Result :=
  .next (s.finishFlag x (s.reg x + s.reg y) (carryFlag (s.reg x) (s.reg y)))

/-- 8xy5 SUB Vx, Vy (R178): VF = 1 iff Vx > Vy. -/
def execSub (x y : Reg) (s : State) : Result :=
  .next (s.finishFlag x (s.reg x - s.reg y) (greaterFlag (s.reg x) (s.reg y)))

/-- 8xy6 SHR Vx (R179): y is ignored (R109). -/
def execShr (x _y : Reg) (s : State) : Result :=
  .next (s.finishFlag x (s.reg x >>> (1 : Nat)) (shiftedOutRight (s.reg x)))

/-- 8xy7 SUBN Vx, Vy (R180): VF = 1 iff Vy > Vx. -/
def execSubn (x y : Reg) (s : State) : Result :=
  .next (s.finishFlag x (s.reg y - s.reg x) (greaterFlag (s.reg y) (s.reg x)))

/-- 8xyE SHL Vx (R181): y is ignored (R109). -/
def execShl (x _y : Reg) (s : State) : Result :=
  .next (s.finishFlag x (s.reg x <<< (1 : Nat)) (shiftedOutLeft (s.reg x)))

/-- Cxkk RND Vx, kk (R182): one byte is drawn, whatever kk is. -/
def execRnd (x : Reg) (kk : Byte) (s : State) : Result :=
  .next ({ s with rngs := (Config.rngNext s.rngs).2 }.finish x ((Config.rngNext s.rngs).1 &&& kk))

end Sys2Proof.Machine
end

