-- ==== Sys2Proof/Machine/Display.lean ====
section
/-! DEFINITION. The framebuffer update engine (44_display.md): 00E0 and Dxyn. -/

namespace Sys2Proof.Machine

/-- 00E0 CLS (R231). -/
def execCls (s : State) : Result := .next ({ s with fb := Vector.replicate 32 0 }.advance)

/-- The column of sprite column c from origin ox (R230). -/
def columnOf (ox c : Nat) : Fin 64 := Fin.ofNat 64 (ox + c)

/-- The row of sprite row r from origin oy (R230). -/
def rowOf (oy r : Nat) : Fin 32 := Fin.ofNat 32 (oy + r)

/-- The framebuffer being written, and whether a set pixel was met (R232). -/
abbrev Drawing := FrameBuffer × Bool

/-- One sprite bit of row r, byte b, at column c (R232): bit 7 is column 0 (log entry 15). Pixels are read from the
pre-step framebuffer (R15). -/
def drawBit (pre : FrameBuffer) (ox oy r : Nat) (b : Byte) (d : Drawing) (c : Nat) : Drawing :=
  if b.getLsbD (7 - c) then
    (setPixel d.1 (columnOf ox c) (rowOf oy r) (!pixelOf pre (columnOf ox c) (rowOf oy r)),
      d.2 || pixelOf pre (columnOf ox c) (rowOf oy r))
  else d

/-- One sprite row (R232): columns 0 to 7. -/
def drawRow (pre : FrameBuffer) (ox oy r : Nat) (b : Byte) (d : Drawing) : Drawing :=
  [0, 1, 2, 3, 4, 5, 6, 7].foldl (drawBit pre ox oy r b) d

/-- The sprite rows from r on (R232). -/
def drawRows (pre : FrameBuffer) (ox oy : Nat) : Nat → List Byte → Drawing → Drawing
  | _, [], d => d
  | r, b :: bs, d => drawRows pre ox oy (r + 1) bs (drawRow pre ox oy r b d)

/-- The whole draw (R232), from the pre-step framebuffer. -/
def drawSprite (pre : FrameBuffer) (ox oy : Nat) (bs : List Byte) : Drawing := drawRows pre ox oy 0 bs (pre, false)

/-- Dxyn DRW Vx, Vy, n (R232, R233): VF is written last, after every pixel. -/
def execDrw (x y : Reg) (n : Fin 16) (s : State) : Result :=
  match s.loadAtI n.val with
  | .ok bs =>
    .next ({ s with fb := (drawSprite s.fb (s.reg x).toNat (s.reg y).toNat bs).1 }.setFlag
      (collisionFlag (drawSprite s.fb (s.reg x).toNat (s.reg y).toNat bs).2)).advance
  | .error a => .next (s.raiseAddress a)

end Sys2Proof.Machine
end

