-- ==== Sys2Proof/Machine/Flow.lean ====
section
/-! DEFINITION. Control transfer (40_flow.md): 00EE, 0nnn, 1nnn, 2nnn, Bnnn. -/

namespace Sys2Proof.Machine

/-- 00EE RET (R130): pc <- Pop(), or StackUnderflow(0). -/
def execRet (s : State) : Result :=
  match s.pop with
  | some (target, t) => .next (t.jumpTo target)
  | none => .next (s.raise .stackUnderflow 0)

/-- 0nnn SYS (R134): raises UnknownOpcode(w), w being the word 0x0nnn. -/
def execSys (nnn : Addr) (s : State) : Result := .next (s.raise .unknownOpcode (nnn.setWidth 32))

/-- 1nnn JP (R131). -/
def execJp (nnn : Addr) (s : State) : Result := .next (s.jumpTo (zext16 nnn))

/-- 2nnn CALL (R132): Push(next), pc <- nnn, or StackOverflow(next). -/
def execCall (nnn : Addr) (s : State) : Result :=
  match s.push s.next with
  | some t => .next (t.jumpTo (zext16 nnn))
  | none => .next (s.raise .stackOverflow (s.next.setWidth 32))

/-- Bnnn JP V0 (R133): pc <- V0 + nnn, not masked. -/
def execJpV0 (nnn : Addr) (s : State) : Result := .next (s.jumpTo (s.jumpOffset nnn))

end Sys2Proof.Machine
end

