-- ==== Sys2Proof/Machine/Index.lean ====
section
/-! DEFINITION. The index register and memory transfers (43_index_memory.md): Annn, Fx1E, Fx29, Fx33, Fx55, Fx65. -/

namespace Sys2Proof.Machine

/-- I <- val; pc <- next. -/
def State.finishI (s : State) (val : Word) : State := { s with i := val }.advance

/-- The bytes are stored at I, I+1, ... and pc <- next, or AddressOutOfRange of the first bad address; a raise stores
nothing (R288). -/
def State.storeAndAdvance (s : State) (bs : List Byte) : State :=
  match s.storeAtI bs with
  | .ok m => { s with mem := m }.advance
  | .error a => s.raiseAddress a

/-- Annn LD I, nnn (R200). -/
def execLdI (nnn : Addr) (s : State) : Result := .next (s.finishI (zext16 nnn))

/-- Fx1E ADD I, Vx (R202): 16-bit sum; VF only under FX1E_VF, written last (R203). -/
def execAddI (x : Reg) (s : State) : Result :=
  .next ((if s.cfg.fx1eVf then s.setFlag (indexOverflowFlag s.i (s.reg x)) else s).finishI
    (BitVec.ofNat 16 (s.i.toNat + (s.reg x).toNat)))

/-- Fx29 LD F, Vx (R204). -/
def execLdF (x : Reg) (s : State) : Result := .next (s.finishI (glyphAddress s.cfg (s.reg x)))

/-- Fx33 LD B, Vx (R205). -/
def execLdB (x : Reg) (s : State) : Result := .next (s.storeAndAdvance (bcdDigits (s.reg x)))

/-- Fx55 LD [I], Vx (R206): V0 to Vx; I is unchanged (R201). -/
def execLdMemVx (x : Reg) (s : State) : Result := .next (s.storeAndAdvance (s.regsUpTo x))

/-- Fx65 LD Vx, [I] (R207): V0 to Vx; I is unchanged (R201). -/
def execLdVxMem (x : Reg) (s : State) : Result :=
  match s.loadAtI (x.val + 1) with
  | .ok bs => .next ({ s with v := setRegsFrom s.v 0 bs }.advance)
  | .error a => .next (s.raiseAddress a)

end Sys2Proof.Machine
end

