-- ==== Sys2Proof/Machine/TimersKeys.lean ====
section
/-! DEFINITION. Timer and keypad instructions (45_timers_keys.md): Fx07, Fx15, Fx18, Ex9E, ExA1, Fx0A and its wait step. -/

namespace Sys2Proof.Machine

/-- Fx07 LD Vx, DT (R250). -/
def execLdVxDt (x : Reg) (s : State) : Result := .next (s.setReg x s.dt).advance

/-- Fx15 LD DT, Vx (R251). -/
def execLdDtVx (x : Reg) (s : State) : Result := .next { s with dt := s.reg x }.advance

/-- Fx18 LD ST, Vx (R252). -/
def execLdStVx (x : Reg) (s : State) : Result := .next { s with st := s.reg x }.advance

/-- raise KeyOutOfRange(V[x]) (R253, R285). -/
def State.raiseKey (s : State) (x : Reg) : State := s.raise .keyOutOfRange ((s.reg x).setWidth 32)

/-- Ex9E SKP Vx (R254). -/
def execSkp (x : Reg) (s : State) : Result :=
  match s.keyIndex x with
  | some key => .next (s.skipIf (s.keyDown key))
  | none => .next (s.raiseKey x)

/-- ExA1 SKNP Vx (R255). -/
def execSknp (x : Reg) (s : State) : Result :=
  match s.keyIndex x with
  | some key => .next (s.skipIf (!s.keyDown key))
  | none => .next (s.raiseKey x)

/-- Fx0A LD Vx, K (R256), entry: the wait is armed and pc stays. -/
def execLdVxK (x : Reg) (s : State) : Result := .next { s with kwait := true, kwaitX := x, kprev := s.k }

/-- WaitStep() (R257): the lowest key that went from released to pressed completes the Fx0A; KPREV <- K either way. -/
def State.waitStep (s : State) : State :=
  match lowestKey s.newKeys with
  | none => { s with kprev := s.k }
  | some key => ({ s with kprev := s.k, kwait := false }.setReg s.kwaitX (BitVec.ofNat 8 key)).advance

end Sys2Proof.Machine
end

