-- ==== Sys2Proof/Machine/Cycle.lean ====
section
/-! DEFINITION. The step cycle (30_encoding.md R111), in the order of checks of 60_exceptions.md R291: latched error, wait
step, fetch, decode, the instruction. -/

namespace Sys2Proof.Machine

/-- IR <- w (R47), committed with the instruction's own writes: a step that raised leaves IR as it was (R288). -/
def commitIr (w : Word) : Result → Result
  | .next t => .next (if t.errCode = 0 then { t with ir := w } else t)
  | .fault f => .fault f
  | .refused r => .refused r

/-- The step from the decoded word on (R111): UnknownOpcode(w), or the instruction's rule. -/
def executeWord (w : Word) (s : State) : Result :=
  match decodeWord w with
  | .ok i => commitIr w (exec i s)
  | .error _ => .next (s.raise .unknownOpcode (w.setWidth 32))

/-- STEP (R111, R291). -/
def stepCycle (s : State) : Result :=
  if s.errCode ≠ 0 then .next s
  else if s.kwait then .next s.waitStep
  else
    match s.fetchWord with
    | .ok w => executeWord w s
    | .error a => .next (s.raiseAddress a)

/-- M[EA(a)] <- b, where EA gives an address; nothing otherwise. -/
def State.place (s : State) (a : Nat) (b : Byte) : State :=
  match s.ea a with
  | some p => { s with mem := Memory.write s.cfg s.mem p b }
  | none => s

/-- The word w stored where the next fetch reads, and the two things that keep a STEP from fetching out of the way: a
latched error and a pending wait (R111). -/
def State.placeWord (s : State) (w : Word) : State :=
  ({ s with errCode := 0, errPc := 0, errInfo := 0, kwait := false }.place s.pc.toNat (w.extractLsb' 8 8)).place
    (s.pc.toNat + 1) (w.extractLsb' 0 8)

end Sys2Proof.Machine
end

