-- ==== Sys2Proof/Machine/Step.lean ====
section
/-! DEFINITION. The machine's step, which is the host's STEP command (60_exceptions.md R300), and the host's way to place
an instruction. -/

namespace Sys2Proof.Machine

/-- STEP (30_encoding.md R111). -/
def step (s : State) : Host.Outcome State Fault Refusal := stepCycle s

/-- s with a table row's word stored where step fetches its next instruction (log entry 12). -/
def State.withFetchWord (s : State) (nbits w : Nat) : State := s.placeWord (tableWord nbits w)

end Sys2Proof.Machine
end

