-- ==== Sys2Proof/Machine/Commands.lean ====
section
/-! DEFINITION. The host interface (60_exceptions.md R300 to R314): the seven commands, their results, and the outputs
SOUND_ON and FB_DIRTY, which are not stored state. -/

namespace Sys2Proof.Machine

/-- The status part of STEP's result (R302). -/
inductive StepStatus where
  | ok
  | waiting
  | error (code : BitVec 3) (pc : Word) (info : BitVec 32)
deriving DecidableEq, Repr

/-- What OBSERVE returns (R306). -/
structure Observation where
  v : Vector Byte 16
  i : Word
  pc : Word
  /-- SP in its 5 bits (R39) -/
  sp : BitVec 5
  stack : Vector Word 16
  dt : Byte
  st : Byte
  /-- M[0..4095] in order of address -/
  mem : List Byte
  fb : Vector (BitVec 64) 32
  k : Word
  kwait : Bool
  kwaitX : Reg
  kprev : Word
  ir : Word
  errCode : BitVec 3
  errPc : Word
  errInfo : BitVec 32
  soundOn : Bool
deriving DecidableEq, Repr

/-- The commands (R300). -/
inductive Command where
  | reset (seed : Nat)
  | step
  | tick
  | setKey (key : Nat) (pressed : Bool)
  | loadRom (bytes : List Byte)
  | skip
  | observe
deriving DecidableEq, Repr

/-- The results (R300). -/
inductive Response where
  | ok
  /-- STEP: its status and FB_DIRTY (R302) -/
  | stepped (status : StepStatus) (fbDirty : Bool)
  /-- SET_KEY with a key above 15 (R304) -/
  | badKey
  /-- LOAD_ROM of a ROM that does not fit (R90, R286) -/
  | romOverflow (len : Nat)
  /-- SKIP with no error latched (R314) -/
  | nothingToSkip
  | view (o : Observation)
deriving DecidableEq, Repr

/-- SOUND_ON (R297). -/
def State.soundOn (s : State) : Bool := decide (s.st ≠ 0)

/-- STEP's status, read from the state after the step (R302): a latched error, old or new, else a pending wait, else OK. -/
def State.status (t : State) : StepStatus :=
  if t.errCode ≠ 0 then .error t.errCode t.errPc t.errInfo
  else if t.kwait then .waiting
  else .ok

/-- Whether a word is one of the two instructions that write FB (R43). -/
def drawsWord (w : Word) : Bool :=
  match decodeWord w with
  | .ok .cls => true
  | .ok (.drw _ _ _) => true
  | _ => false

/-- FB_DIRTY of the step from s to t (R236): it committed an 00E0 or a Dxyn. -/
def fbDirty (s t : State) : Bool :=
  decide (s.errCode = 0) && !s.kwait && decide (t.errCode = 0) &&
    match s.fetchWord with
    | .ok w => drawsWord w
    | .error _ => false

/-- A timer's decrement (R295): by 1, and never below 0. -/
def tickDown (b : Byte) : Byte := if b = 0 then 0 else b - 1

/-- TICK (R295, R296). -/
def State.tick (s : State) : State := { s with dt := tickDown s.dt, st := tickDown s.st }

/-- K[key] <- pressed (R304). -/
def State.putKey (s : State) (key : Nat) (pressed : Bool) : State :=
  { s with k := if pressed then s.k ||| BitVec.twoPow 16 key else s.k &&& ~~~(BitVec.twoPow 16 key) }

/-- M[0x200 + j] <- bytes[j] (R90). -/
def State.copyRom (s : State) (bytes : List Byte) : State :=
  { s with mem := Memory.writeAll s.cfg s.mem (span 0x200 bytes.length) bytes }

/-- FB as one number (R43): pixel (x, y) is bit y*64 + x. -/
def frameBits (fb : FrameBuffer) : Nat := fb.toList.foldr (fun row rest => row.toNat + 2 ^ 64 * rest) 0

/-- OBSERVE's view (R306). -/
def State.observe (s : State) : Observation where
  v := s.v
  i := s.i
  pc := s.pc
  sp := BitVec.ofNat 5 s.sp.val
  stack := s.stack
  dt := s.dt
  st := s.st
  mem := (List.range 4096).map s.byteAt
  fb := s.fb
  k := s.k
  kwait := s.kwait
  kwaitX := s.kwaitX
  kprev := s.kprev
  ir := s.ir
  errCode := s.errCode
  errPc := s.errPc
  errInfo := s.errInfo
  soundOn := s.soundOn

/-- What a command answers: the state after it and its result. -/
abbrev Answer := Host.Outcome (State × Response) Fault Refusal

/-- One command, one atomic transition (R300, R307). -/
def command (c : Command) (s : State) : Answer :=
  match c with
  | .reset seed => .next (State.resetWith s.cfg seed, .ok)
  | .step =>
    match step s with
    | .next t => .next (t, .stepped t.status (fbDirty s t))
    | .fault f => .fault f
    | .refused r => .refused r
  | .tick => .next (s.tick, .ok)
  | .setKey key pressed => if key < 16 then .next (s.putKey key pressed, .ok) else .next (s, .badKey)
  | .loadRom bytes =>
    if 0x200 + bytes.length > 4096 then .next (s, .romOverflow bytes.length) else .next (s.copyRom bytes, .ok)
  | .skip => if s.errCode = 0 then .next (s, .nothingToSkip) else .next (s.clearError, .ok)
  | .observe => .next (s, .view s.observe)

/-- The commands of a host, carried out one after the other in its order (R307): the state after them. -/
def runCommands : List Command → State → Result
  | [], s => .next s
  | c :: cs, s =>
    match command c s with
    | .next (t, _) => runCommands cs t
    | .fault f => .fault f
    | .refused r => .refused r

end Sys2Proof.Machine
end

