-- ==== Sys2Proof/Safety.lean ====
section
/-! DEFINITION. The terms the claims are stated in: which state fetches, what an invariant says, what a frame leaves
alone, which pixels a sprite covers, which words are unknown. -/

namespace Sys2Proof

open Machine

/-! States -/

/-- The next STEP fetches an instruction (R111): no error is latched and no key is awaited. -/
def Machine.State.Running (s : State) : Prop := s.errCode = 0 ∧ s.kwait = false

/-- The next STEP decodes and executes i (R111). -/
def Machine.State.Executes (s : State) (i : Instr) : Prop :=
  s.Running ∧ ∃ w, s.fetchWord = .ok w ∧ decodeWord w = .ok i

/-- Key j went from released to pressed since the snapshot KPREV (R257). -/
def Machine.State.NewKey (s : State) (j : Fin 16) : Prop := s.k.getLsbD j = true ∧ s.kprev.getLsbD j = false

/-- The error record tells the truth (R280, R289, R292): either no error is latched and the record is clear, or ERR_PC is
pc, no key is awaited (a wait step cannot raise, R258), and ERR_INFO fits the kind; codes 6 and 7 are never latched. -/
def Machine.State.ErrorRecordOk (s : State) : Prop :=
  (s.errCode = 0 ∧ s.errPc = 0 ∧ s.errInfo = 0) ∨
  (s.errPc = s.pc ∧ s.kwait = false ∧
    ((s.errCode = 1 ∧ s.errInfo.toNat < 65536) ∨
     (s.errCode = 2 ∧ s.sp = 16 ∧ s.errInfo.toNat = (s.pc + 2).toNat) ∨
     (s.errCode = 3 ∧ s.sp = 0 ∧ s.errInfo = 0) ∨
     (s.errCode = 4 ∧ s.cfg.addrMode = .fault ∧ 4096 ≤ s.errInfo.toNat) ∨
     (s.errCode = 5 ∧ 15 < s.errInfo.toNat ∧ s.errInfo.toNat < 256)))

/-- The invariant of the block: memory is in its canonical form, the error record tells the truth, and a pending wait is
the one of the Fx0A that IR still holds (R46, R47, R256). -/
def Machine.State.Inv (s : State) : Prop :=
  Memory.wf s.cfg s.mem = true ∧ s.ErrorRecordOk ∧ (s.kwait = true → s.ir = encode (.ldVxK s.kwaitX))

/-- R38's bound in ADDR_MODE = fault: pc is at most 0x10FE, every stack slot holds at most 0x1000, and a pending wait
stands at an address that was fetched. -/
def Machine.State.PcBounded (s : State) : Prop :=
  s.cfg.addrMode = .fault ∧ s.pc.toNat ≤ 0x10FE ∧ (∀ j : Fin 16, (s.stack[j]).toNat ≤ 0x1000) ∧
    (s.kwait = true → s.pc.toNat ≤ 0xFFE)

/-! Encodings -/

/-- Every word that matches the pattern (opcode_table.json: w AND mask = pat) decodes to the instruction f w. -/
def HasPattern (mask pat : Word) (f : Word → Instr) : Prop := ∀ w : Word, w &&& mask = pat → decodeWord w = .ok (f w)

/-- R108's list of the words that select no instruction, read as numbers. -/
def UnknownWord (w : Word) : Prop :=
  (w.toNat / 0x1000 = 0x0 ∧ w.toNat ≠ 0x00E0 ∧ w.toNat ≠ 0x00EE) ∨
  (w.toNat / 0x1000 = 0x5 ∧ w.toNat % 16 ≠ 0) ∨
  (w.toNat / 0x1000 = 0x8 ∧ w.toNat % 16 ∈ [0x8, 0x9, 0xA, 0xB, 0xC, 0xD, 0xF]) ∨
  (w.toNat / 0x1000 = 0x9 ∧ w.toNat % 16 ≠ 0) ∨
  (w.toNat / 0x1000 = 0xE ∧ w.toNat % 256 ∉ [0x9E, 0xA1]) ∨
  (w.toNat / 0x1000 = 0xF ∧ w.toNat % 256 ∉ [0x07, 0x0A, 0x15, 0x18, 0x1E, 0x29, 0x33, 0x55, 0x65])

/-! Frames: what a step leaves alone. Each says that t is s but for the named fields. -/

/-- Every byte of memory reads as before. -/
def SameMemory (s t : State) : Prop := ∀ a, t.byteAt a = s.byteAt a

/-- Only pc may differ. -/
def OnlyPc (s t : State) : Prop := t = { s with pc := t.pc } ∧ SameMemory s t

/-- Only the registers named and pc may differ. -/
def OnlyRegs (s t : State) (written : List Reg) : Prop :=
  t = { s with v := t.v, pc := t.pc } ∧ (∀ y, y ∉ written → t.reg y = s.reg y) ∧ SameMemory s t

/-- Only I and pc may differ. -/
def OnlyIndex (s t : State) : Prop := t = { s with i := t.i, pc := t.pc } ∧ SameMemory s t

/-- Only memory and pc may differ, and of memory only the bytes at the physical addresses of the n bytes at I. -/
def OnlyBytesAtI (s t : State) (n : Nat) : Prop :=
  t = { s with mem := t.mem, pc := t.pc } ∧
    ∀ a, (∀ j, j < n → s.ea (s.i.toNat + j) ≠ some a) → t.byteAt a = s.byteAt a

/-- The n bytes at I are all in range (R72). -/
def InRangeAtI (s : State) (n : Nat) : Prop := ∀ j, j < n → (s.ea (s.i.toNat + j)).isSome = true

/-- Of the n bytes at I, the one at offset j is the first out of range (R291). -/
def FirstBadAtI (s : State) (n j : Nat) : Prop := j < n ∧ InRangeAtI s j ∧ s.ea (s.i.toNat + j) = none

/-- The state after raising the error of this code and information value (R288, R289). -/
def Raised (s : State) (code : BitVec 3) (info : BitVec 32) : State :=
  { s with errCode := code, errPc := s.pc, errInfo := info }

/-! Sprites -/

/-- Some set bit of the n sprite bytes at I lands on the pixel (px, py) when drawn at (V[x], V[y]) (R230, R232). -/
def SpriteSets (s : State) (x y : Reg) (n : Fin 16) (px : Fin 64) (py : Fin 32) : Prop :=
  ∃ r c a, r < n.val ∧ c < 8 ∧ s.ea (s.i.toNat + r) = some a ∧ (s.byteAt a).getLsbD (7 - c) = true ∧
    px.val = ((s.reg x).toNat + c) % 64 ∧ py.val = ((s.reg y).toNat + r) % 32

/-- The instructions that may write VF: the flag writers whatever their x (R34), and the instructions that write V[x]
when x = F or, for Fx65, when its range reaches F (R31). -/
def MayWriteVf (c : Config) (i : Instr) : Prop :=
  (∃ x y, i = .addReg x y ∨ i = .sub x y ∨ i = .shr x y ∨ i = .subn x y ∨ i = .shl x y) ∨
  (∃ x y n, i = .drw x y n) ∨
  (c.fx1eVf = true ∧ ∃ x, i = .addI x) ∨
  (∃ kk, i = .ldImm 15 kk ∨ i = .addImm 15 kk ∨ i = .rnd 15 kk) ∨
  (∃ y, i = .ldReg 15 y ∨ i = .orReg 15 y ∨ i = .andReg 15 y ∨ i = .xorReg 15 y) ∨
  i = .ldVxDt 15 ∨ i = .ldVxMem 15

end Sys2Proof
end

