-- ==== Sys2Proof/Certificates/Slice0/Obligations.lean ====
section
/-! DEFINITION. The statements for the provers. Each docstring names the rule of spec/ it formalises; "the model's" marks
what no rule states. A pattern clause (`HasPattern`) is the rule's own Encoding line. -/

open Sys2Proof Sys2Proof.Machine

/-! Encoding -/

/-- 30_encoding.md sections 1 and 2: no operand bit of any well-formed instruction is dropped or moved by the encoder and
the decoder. -/
def Obligations.DecodeInvertsEncode : Prop := ∀ i : Instr, i.wf = true → decodeWord (encode i) = .ok i

/-- 30_encoding.md R110's "selects exactly one": a word that decodes is the encoding of what it decodes to, so no word has
two meanings and no instruction has two words. -/
def Obligations.EncodeInvertsDecode : Prop := ∀ w i, decodeWord w = .ok i → encode i = w ∧ i.wf = true

/-- A word of each family, written out from R103 to R107, decodes from its bytes in memory order to the instruction it
stands for. -/
def Obligations.SampleWordsDecode : Prop :=
  decode [0x00, 0xEE] = .ok (.ret, []) ∧
  decode [0x23, 0x45, 0x67] = .ok (.call 0x345, [0x67]) ∧
  decode [0x4A, 0x5C] = .ok (.sneImm 0xA 0x5C, []) ∧
  decode [0x8F, 0x1E] = .ok (.shl 0xF 0x1, []) ∧
  decode [0xB3, 0x21] = .ok (.jpV0 0x321, []) ∧
  decode [0xD1, 0x2F] = .ok (.drw 1 2 15, []) ∧
  decode [0xE1, 0xA1] = .ok (.sknp 1, []) ∧
  decode [0xF2, 0x65] = .ok (.ldVxMem 2, []) ∧
  decode [0x51, 0x21] = .error (.unknownOpcode 0x5121)

/-- R108: a step that fetches one of exactly these words raises UnknownOpcode(w), and no other word does. -/
def Obligations.UnknownWordsRaise : Prop :=
  ∀ (s : State) (w : Word), s.Running → s.fetchWord = .ok w →
    (UnknownWord w → step s = .next (Raised s 1 (w.setWidth 32))) ∧
    (¬ UnknownWord w → ∃ t, step s = .next t ∧ t.errCode ≠ 1)

/-! The step cycle -/

/-- R111: where the fetched word decodes to i, the instruction answers a next state t and the step is t; around the
instruction the step only writes IR with the word, and that only if the instruction did not raise (R288). -/
def Obligations.StepRunsDecodedInstruction : Prop :=
  ∀ (s : State) (w : Word) (i : Instr), s.Running → s.fetchWord = .ok w → decodeWord w = .ok i →
    ∃ t, exec i s = .next t ∧ step s = .next (if t.errCode = 0 then { t with ir := w } else t)

/-- R290: while an error is latched, STEP returns it and changes nothing; TICK, SET_KEY, LOAD_ROM and OBSERVE work as
without it and leave it as it is; RESET and SKIP clear it. -/
def Obligations.LatchedErrorIsSticky : Prop :=
  ∀ s : State, s.errCode ≠ 0 →
    command .step s = .next (s, .stepped (.error s.errCode s.errPc s.errInfo) false) ∧
    (∀ c : Command, (c = .tick ∨ (∃ key pressed, c = .setKey key pressed) ∨ ∃ rom, c = .loadRom rom) →
      ∃ t r, command c { s with errCode := 0, errPc := 0, errInfo := 0 } = .next (t, r) ∧
        command c s = .next ({ t with errCode := s.errCode, errPc := s.errPc, errInfo := s.errInfo }, r)) ∧
    command .observe s = .next (s, .view s.observe) ∧
    (∀ seed, ∃ t, command (.reset seed) s = .next (t, .ok) ∧ t.errCode = 0 ∧ t.errPc = 0 ∧ t.errInfo = 0) ∧
    (∃ t, command .skip s = .next (t, .ok) ∧ t.errCode = 0 ∧ t.errPc = 0 ∧ t.errInfo = 0)

/-- R257: the wait step. With no new key only KPREV changes; otherwise the lowest new key completes the Fx0A. -/
def Obligations.WaitStepTakesLowestNewKey : Prop :=
  ∀ s : State, s.errCode = 0 → s.kwait = true →
    ((∀ j, ¬ s.NewKey j) → command .step s = .next ({ s with kprev := s.k }, .stepped .waiting false)) ∧
    (∀ key : Fin 16, s.NewKey key → (∀ j, j < key → ¬ s.NewKey j) →
      ∃ t, command .step s = .next (t, .stepped .ok false) ∧
        (t.reg s.kwaitX).toNat = key.val ∧ t.kwait = false ∧ t.kprev = s.k ∧ t.pc = s.pc + 2 ∧
        (∀ y, y ≠ s.kwaitX → t.reg y = s.reg y) ∧
        t = { s with v := t.v, kwait := t.kwait, kprev := t.kprev, pc := t.pc } ∧ SameMemory s t)

/-- R72: EA, in both modes. -/
def Obligations.EffectiveAddressIsChecked : Prop :=
  ∀ a : Nat, (a < 4096 → ∀ mode, ea mode a = some a) ∧
    (4096 ≤ a → ea .fault a = none ∧ ea .mask12 a = some (a % 4096))

/-- R74 and R76: the fetch is big-endian, checks pc before pc + 1, reports the address that failed, and in mask12 reads
M[0xFFF] and then M[0x000] at pc = 0xFFF. -/
def Obligations.FetchIsBigEndianAndChecked : Prop :=
  ∀ s : State,
    (∀ hi lo, s.ea s.pc.toNat = some hi → s.ea (s.pc.toNat + 1) = some lo →
      ∃ w, s.fetchWord = .ok w ∧ w.toNat = 256 * (s.byteAt hi).toNat + (s.byteAt lo).toNat) ∧
    (s.Running → s.ea s.pc.toNat = none → step s = .next (Raised s 4 (BitVec.ofNat 32 s.pc.toNat))) ∧
    (s.Running → (s.ea s.pc.toNat).isSome = true → s.ea (s.pc.toNat + 1) = none →
      step s = .next (Raised s 4 (BitVec.ofNat 32 (s.pc.toNat + 1)))) ∧
    (s.cfg.addrMode = .mask12 → s.pc = 0xFFF → s.fetchWord = .ok (wordOfBytes (s.byteAt 0xFFF) (s.byteAt 0x000)))

/-- R288 and R289: a step that raises writes ERR_CODE, ERR_PC (the pc) and ERR_INFO, returns them, and leaves everything
else as before the step. -/
def Obligations.ErrorsArePrecise : Prop :=
  ∀ s t : State, s.errCode = 0 → step s = .next t → t.errCode ≠ 0 →
    t = { s with errCode := t.errCode, errPc := s.pc, errInfo := t.errInfo } ∧
    command .step s = .next (t, .stepped (.error t.errCode s.pc t.errInfo) false)

/-- The model's: no step of any state stops the machine; every error is a next state (70_reset_and_hazards.md R331's "The
block never stops by itself"). -/
def Obligations.EveryStepAnswersANextState : Prop := ∀ s : State, ∃ t, step s = .next t

/-! Invariants -/

/-- The invariant `State.Inv` is kept by every step. -/
def Obligations.StepKeepsTheInvariant : Prop := ∀ s t : State, s.Inv → step s = .next t → t.Inv

/-- The invariant `State.Inv` is kept by every command of the host. -/
def Obligations.EveryCommandKeepsTheInvariant : Prop :=
  ∀ (c : Command) (s t : State) (r : Response), s.Inv → command c s = .next (t, r) → t.Inv

/-- Both invariants hold at `State.reset`, and after RESET for every seed and every choice of the parameters. -/
def Obligations.ResetHasTheInvariant : Prop :=
  (State.reset.Inv ∧ State.reset.PcBounded) ∧
  ∀ c seed, (State.resetWith c seed).Inv ∧ (c.addrMode = .fault → (State.resetWith c seed).PcBounded)

/-- R38's bound, in ADDR_MODE = fault: "pc never exceeds 0x10FE by a jump", and the fetch check stops every other way up. -/
def Obligations.StepKeepsPcBounded : Prop := ∀ s t : State, s.PcBounded → step s = .next t → t.PcBounded

/-- The model's: two memories in canonical form that read alike at every address are the same data. -/
def Obligations.CanonicalMemoryIsUnique : Prop :=
  ∀ (c : Config) (m m' : Memory), Memory.wf c m = true → Memory.wf c m' = true →
    (∀ a, a < 4096 → Memory.read c m a = Memory.read c m' a) → m = m'

/-! What a whole step may write -/

/-- 20_memory.md section 5 (the table of R78): a step changes a byte of memory only if it executes Fx33 or Fx55, and only at
one of that instruction's addresses. -/
def Obligations.OnlyFx33AndFx55WriteMemory : Prop :=
  ∀ (s t : State) (a : Nat), step s = .next t → t.byteAt a ≠ s.byteAt a →
    ∃ x, (s.Executes (.ldB x) ∧ ∃ j, j < 3 ∧ s.ea (s.i.toNat + j) = some a) ∨
      (s.Executes (.ldMemVx x) ∧ ∃ j, j ≤ x.val ∧ s.ea (s.i.toNat + j) = some a)

/-- 10_state.md section 7 (R43): only 00E0 and Dxyn write the framebuffer. -/
def Obligations.OnlyClsAndDrwWriteTheFramebuffer : Prop :=
  ∀ s t : State, step s = .next t → t.fb ≠ s.fb → s.Executes .cls ∨ ∃ x y n, s.Executes (.drw x y n)

/-- 10_state.md section 5 (R39): no instruction writes the call stack other than 2nnn and 00EE, and 00EE writes only SP. -/
def Obligations.OnlyCallAndRetTouchTheStack : Prop :=
  ∀ s t : State, step s = .next t →
    (t.stack ≠ s.stack → ∃ nnn, s.Executes (.call nnn)) ∧
    (t.sp ≠ s.sp → s.Executes .ret ∨ ∃ nnn, s.Executes (.call nnn))

/-- 10_state.md sections 6 and 8 (R42, R45): a step never writes the keypad or the parameters, and writes DT only by Fx15 and
ST only by Fx18, with Vx. -/
def Obligations.StepNeverTicksOrTouchesTheKeypad : Prop :=
  ∀ s t : State, step s = .next t →
    t.k = s.k ∧ t.cfg = s.cfg ∧
    (t.dt ≠ s.dt → ∃ x, s.Executes (.ldDtVx x) ∧ t.dt = s.reg x) ∧
    (t.st ≠ s.st → ∃ x, s.Executes (.ldStVx x) ∧ t.st = s.reg x)

/-- 10_state.md sections 3 and 12 (R36, R50): I is written only by Annn, Fx1E and Fx29, and RNGS only by Cxkk. -/
def Obligations.OnlyNamedInstructionsWriteIndexAndRng : Prop :=
  ∀ s t : State, step s = .next t →
    (t.i ≠ s.i → (∃ nnn, s.Executes (.ldI nnn)) ∨ ∃ x, s.Executes (.addI x) ∨ s.Executes (.ldF x)) ∧
    ((∀ x kk, ¬ s.Executes (.rnd x kk)) → t.rngs = s.rngs)

/-- 10_state.md section 2 (R34, with R31): no instruction writes VF but the flag writers and those whose destination is VF;
the wait step writes it only as KWAIT_X. -/
def Obligations.OnlyNamedInstructionsWriteVf : Prop :=
  ∀ s t : State, step s = .next t → t.reg 15 ≠ s.reg 15 →
    (s.kwait = true ∧ s.kwaitX = 15) ∨ ∃ i, s.Executes i ∧ MayWriteVf s.cfg i

/-- 10_state.md R42 ("No instruction reads ST") and R47 ("No instruction reads IR"): a step from a state with another ST
and another IR does the same to everything else. -/
def Obligations.SoundTimerAndIrAreNeverRead : Prop :=
  ∀ (s t : State) (b : Byte) (w : Word), step s = .next t →
    ∃ u, step { s with st := b, ir := w } = .next u ∧ { u with st := t.st, ir := t.ir } = t

/-! Display -/

/-- R231: 00E0 turns every pixel off and changes nothing else but pc. -/
def Obligations.ClearScreenTurnsEveryPixelOff : Prop :=
  HasPattern 0xFFFF 0x00E0 (fun _ => .cls) ∧
  ∀ s : State, ∃ t, exec .cls s = .next t ∧ (∀ px py, t.pixel px py = false) ∧ t.pc = s.pc + 2 ∧
    t = { s with fb := t.fb, pc := t.pc } ∧ SameMemory s t

/-- R230 and R232: Dxyn toggles exactly the pixels its sprite's set bits land on, VF tells whether one went from 1 to 0, and
nothing else but pc changes; where a sprite byte is out of range it raises and draws nothing. -/
def Obligations.DrawTogglesExactlyTheSpritePixels : Prop :=
  HasPattern 0xF000 0xD000 (fun w => .drw (xOf w) (yOf w) (nOf w)) ∧
  ∀ (s : State) (x y : Reg) (n : Fin 16),
    (InRangeAtI s n.val → ∃ t, exec (.drw x y n) s = .next t ∧
      (∀ px py, SpriteSets s x y n px py → t.pixel px py = !s.pixel px py) ∧
      (∀ px py, ¬ SpriteSets s x y n px py → t.pixel px py = s.pixel px py) ∧
      ((∃ px py, SpriteSets s x y n px py ∧ s.pixel px py = true) → t.reg 15 = 1) ∧
      ((∀ px py, SpriteSets s x y n px py → s.pixel px py = false) → t.reg 15 = 0) ∧
      (∀ z, z ≠ 15 → t.reg z = s.reg z) ∧ t.pc = s.pc + 2 ∧
      t = { s with fb := t.fb, v := t.v, pc := t.pc } ∧ SameMemory s t) ∧
    (∀ j, FirstBadAtI s n.val j → exec (.drw x y n) s = .next (Raised s 4 (BitVec.ofNat 32 (s.i.toNat + j))))

/-- R233: Dxy0 cannot raise, changes no pixel and writes VF = 0. -/
def Obligations.DrawOfNoRowsClearsVf : Prop :=
  ∀ (s : State) (x y : Reg), ∃ t, exec (.drw x y 0) s = .next t ∧ t.fb = s.fb ∧ t.reg 15 = 0 ∧ t.pc = s.pc + 2 ∧
    OnlyRegs s t [15]

/-- 44_display.md R234: drawing the same sprite twice at the same place restores every pixel. The second draw's VF is the
model's reading (log entry 16, DEDUCED): it follows R232's pseudocode, so it is 1 exactly when some sprite pixel was off
before the first draw, against R234's sentence that it is 1 for every sprite with a set bit. x and y are not F, or the
first draw's flag would move the sprite. -/
def Obligations.DrawingTwiceRestoresTheScreen : Prop :=
  ∀ (s : State) (x y : Reg) (n : Fin 16), x ≠ 15 → y ≠ 15 → InRangeAtI s n.val →
    ∃ t u, exec (.drw x y n) s = .next t ∧ exec (.drw x y n) t = .next u ∧
      (∀ px py, u.pixel px py = s.pixel px py) ∧
      ((∃ px py, SpriteSets s x y n px py ∧ s.pixel px py = false) → u.reg 15 = 1) ∧
      ((∀ px py, SpriteSets s x y n px py → s.pixel px py = true) → u.reg 15 = 0)

/-- 44_display.md R234's sentence "the second draw reports VF = 1 if the sprite has at least one set bit", read
for every screen: EXPECTED TO FAIL, because a sprite drawn first over set pixels only is restored by the second draw
without a collision, by R232 and by R234's own first sentence (log entry 16). -/
def Obligations.SecondDrawCollidesOnEveryScreen : Prop :=
  ∀ (s : State) (x y : Reg) (n : Fin 16), x ≠ 15 → y ≠ 15 → InRangeAtI s n.val →
    (∃ px py, SpriteSets s x y n px py) →
    ∃ t u, exec (.drw x y n) s = .next t ∧ exec (.drw x y n) t = .next u ∧ u.reg 15 = 1

/-! Control transfer -/

/-- R130: 00EE pops into pc and the slot keeps its value; at SP = 0 it raises StackUnderflow. -/
def Obligations.ReturnPopsThePc : Prop :=
  HasPattern 0xFFFF 0x00EE (fun _ => .ret) ∧
  ∀ s : State,
    (s.sp = 0 → exec .ret s = .next (Raised s 3 0)) ∧
    (∀ j : Fin 16, s.sp.val = j.val + 1 →
      ∃ t, exec .ret s = .next t ∧ t.pc = s.stack[j] ∧ t.sp.val = j.val ∧ t = { s with pc := t.pc, sp := t.sp } ∧
        SameMemory s t)

/-- R132 and R40: 2nnn pushes the address after the call and jumps; at SP = 16 it raises StackOverflow with that address. -/
def Obligations.CallPushesTheNextAddress : Prop :=
  HasPattern 0xF000 0x2000 (fun w => .call (nnnOf w)) ∧
  ∀ (s : State) (nnn : Addr),
    (s.sp = 16 → exec (.call nnn) s = .next (Raised s 2 ((s.pc + 2).setWidth 32))) ∧
    (∀ j : Fin 16, s.sp.val = j.val →
      ∃ t, exec (.call nnn) s = .next t ∧ t.pc.toNat = nnn.toNat ∧ t.stack[j] = s.pc + 2 ∧
        (∀ l : Fin 16, l ≠ j → t.stack[l] = s.stack[l]) ∧ t.sp.val = j.val + 1 ∧
        t = { s with pc := t.pc, stack := t.stack, sp := t.sp } ∧ SameMemory s t)

/-- 40_flow.md, corner cases of R130: a return resumes at the instruction after its call, with the stack pointer as it was. -/
def Obligations.ReturnResumesAfterItsCall : Prop :=
  ∀ (s : State) (nnn : Addr), s.sp ≠ 16 →
    ∃ t u, exec (.call nnn) s = .next t ∧ exec .ret t = .next u ∧ u.pc = s.pc + 2 ∧ u.sp = s.sp ∧
      u = { s with pc := u.pc, stack := u.stack }

/-- R134: every word of family 0 but 00E0 and 00EE is SYS, and SYS raises UnknownOpcode(w). -/
def Obligations.SysRaisesUnknownOpcode : Prop :=
  (∀ w : Word, w &&& 0xF000 = 0x0000 → w ≠ 0x00E0 → w ≠ 0x00EE →
    decodeWord w = .ok (.sys (nnnOf w)) ∧ (nnnOf w).setWidth 32 = w.setWidth 32) ∧
  ∀ (s : State) (nnn : Addr), exec (.sys nnn) s = .next (Raised s 1 (nnn.setWidth 32))

/-- R131 and R133: 1nnn goes to nnn; Bnnn to V0 + nnn, always V0 and never masked. -/
def Obligations.JumpsSetThePc : Prop :=
  HasPattern 0xF000 0x1000 (fun w => .jp (nnnOf w)) ∧ HasPattern 0xF000 0xB000 (fun w => .jpV0 (nnnOf w)) ∧
  ∀ (s : State) (nnn : Addr),
    (∃ t, exec (.jp nnn) s = .next t ∧ t.pc.toNat = nnn.toNat ∧ OnlyPc s t) ∧
    (∃ t, exec (.jpV0 nnn) s = .next t ∧ t.pc.toNat = (s.reg 0).toNat + nnn.toNat ∧ OnlyPc s t)

/-! Skips -/

/-- R150 to R152: SE Vx, kk and SNE Vx, kk move pc by exactly 4 when the condition holds, else by 2. -/
def Obligations.ImmediateSkipsMovePcByFourOrTwo : Prop :=
  HasPattern 0xF000 0x3000 (fun w => .seImm (xOf w) (kkOf w)) ∧
  HasPattern 0xF000 0x4000 (fun w => .sneImm (xOf w) (kkOf w)) ∧
  ∀ (s : State) (x : Reg) (kk : Byte),
    (∃ t, exec (.seImm x kk) s = .next t ∧ t.pc = (if s.reg x = kk then s.pc + 4 else s.pc + 2) ∧ OnlyPc s t) ∧
    (∃ t, exec (.sneImm x kk) s = .next t ∧ t.pc = (if s.reg x = kk then s.pc + 2 else s.pc + 4) ∧ OnlyPc s t)

/-- R153 and R154: SE Vx, Vy and SNE Vx, Vy likewise, so x = y always skips in the first and never in the second; a word
5xyN or 9xyN with N not 0 is UnknownOpcode. -/
def Obligations.RegisterSkipsMovePcByFourOrTwo : Prop :=
  HasPattern 0xF00F 0x5000 (fun w => .seReg (xOf w) (yOf w)) ∧
  HasPattern 0xF00F 0x9000 (fun w => .sneReg (xOf w) (yOf w)) ∧
  (∀ w : Word, w &&& 0xF000 = 0x5000 ∨ w &&& 0xF000 = 0x9000 → w &&& 0x000F ≠ 0 →
    decodeWord w = .error (.unknownOpcode w)) ∧
  ∀ (s : State) (x y : Reg),
    (∃ t, exec (.seReg x y) s = .next t ∧ t.pc = (if s.reg x = s.reg y then s.pc + 4 else s.pc + 2) ∧ OnlyPc s t) ∧
    (∃ t, exec (.sneReg x y) s = .next t ∧ t.pc = (if s.reg x = s.reg y then s.pc + 2 else s.pc + 4) ∧ OnlyPc s t)

/-- R253 to R255: SKP and SKNP test the key V[x]; above 15 they raise KeyOutOfRange(V[x]) and change nothing. -/
def Obligations.KeySkipsTestTheKeypad : Prop :=
  HasPattern 0xF0FF 0xE09E (fun w => .skp (xOf w)) ∧ HasPattern 0xF0FF 0xE0A1 (fun w => .sknp (xOf w)) ∧
  ∀ (s : State) (x : Reg),
    (∀ key : Fin 16, (s.reg x).toNat = key.val →
      (∃ t, exec (.skp x) s = .next t ∧ t.pc = (if s.k.getLsbD key = true then s.pc + 4 else s.pc + 2) ∧ OnlyPc s t) ∧
      (∃ t, exec (.sknp x) s = .next t ∧ t.pc = (if s.k.getLsbD key = true then s.pc + 2 else s.pc + 4) ∧ OnlyPc s t)) ∧
    (15 < (s.reg x).toNat →
      exec (.skp x) s = .next (Raised s 5 ((s.reg x).setWidth 32)) ∧
      exec (.sknp x) s = .next (Raised s 5 ((s.reg x).setWidth 32)))

/-! Registers -/

/-- R171 and R172: 6xkk loads kk; 7xkk adds kk modulo 256 and writes no flag. -/
def Obligations.ImmediateLoadAndAdd : Prop :=
  HasPattern 0xF000 0x6000 (fun w => .ldImm (xOf w) (kkOf w)) ∧
  HasPattern 0xF000 0x7000 (fun w => .addImm (xOf w) (kkOf w)) ∧
  ∀ (s : State) (x : Reg) (kk : Byte),
    (∃ t, exec (.ldImm x kk) s = .next t ∧ t.reg x = kk ∧ t.pc = s.pc + 2 ∧ OnlyRegs s t [x]) ∧
    (∃ t, exec (.addImm x kk) s = .next t ∧ (t.reg x).toNat = ((s.reg x).toNat + kk.toNat) % 256 ∧
      t.pc = s.pc + 2 ∧ OnlyRegs s t [x])

/-- R173 to R176: 8xy0 to 8xy3 move, or, and, xor, bit by bit; VF is not reset. -/
def Obligations.MoveAndLogicAreBitwise : Prop :=
  HasPattern 0xF00F 0x8000 (fun w => .ldReg (xOf w) (yOf w)) ∧ HasPattern 0xF00F 0x8001 (fun w => .orReg (xOf w) (yOf w)) ∧
  HasPattern 0xF00F 0x8002 (fun w => .andReg (xOf w) (yOf w)) ∧
  HasPattern 0xF00F 0x8003 (fun w => .xorReg (xOf w) (yOf w)) ∧
  ∀ (s : State) (x y : Reg),
    (∃ t, exec (.ldReg x y) s = .next t ∧ t.reg x = s.reg y ∧ t.pc = s.pc + 2 ∧ OnlyRegs s t [x]) ∧
    (∃ t, exec (.orReg x y) s = .next t ∧
      (∀ b, b < 8 → (t.reg x).getLsbD b = ((s.reg x).getLsbD b || (s.reg y).getLsbD b)) ∧
      t.pc = s.pc + 2 ∧ OnlyRegs s t [x]) ∧
    (∃ t, exec (.andReg x y) s = .next t ∧
      (∀ b, b < 8 → (t.reg x).getLsbD b = ((s.reg x).getLsbD b && (s.reg y).getLsbD b)) ∧
      t.pc = s.pc + 2 ∧ OnlyRegs s t [x]) ∧
    (∃ t, exec (.xorReg x y) s = .next t ∧
      (∀ b, b < 8 → (t.reg x).getLsbD b = ((s.reg x).getLsbD b ^^ (s.reg y).getLsbD b)) ∧
      t.pc = s.pc + 2 ∧ OnlyRegs s t [x])

/-- R177: 8xy4 writes the sum modulo 256 and then the carry, from the pre-step operands; with x = F the carry stays. -/
def Obligations.AddWritesSumThenCarry : Prop :=
  HasPattern 0xF00F 0x8004 (fun w => .addReg (xOf w) (yOf w)) ∧
  ∀ (s : State) (x y : Reg), ∃ t, exec (.addReg x y) s = .next t ∧
    (x ≠ 15 → (t.reg x).toNat = ((s.reg x).toNat + (s.reg y).toNat) % 256) ∧
    t.reg 15 = (if (s.reg x).toNat + (s.reg y).toNat > 255 then 1 else 0) ∧
    t.pc = s.pc + 2 ∧ OnlyRegs s t [x, 15]

/-- R178 and R180: 8xy5 writes Vx - Vy modulo 256 and VF = 1 iff Vx > Vy strictly; 8xy7 with the operands exchanged. -/
def Obligations.SubtractionsWriteDifferenceThenFlag : Prop :=
  HasPattern 0xF00F 0x8005 (fun w => .sub (xOf w) (yOf w)) ∧ HasPattern 0xF00F 0x8007 (fun w => .subn (xOf w) (yOf w)) ∧
  ∀ (s : State) (x y : Reg),
    (∃ t, exec (.sub x y) s = .next t ∧
      (x ≠ 15 → (t.reg x).toNat = ((s.reg x).toNat + 256 - (s.reg y).toNat) % 256) ∧
      t.reg 15 = (if (s.reg x).toNat > (s.reg y).toNat then 1 else 0) ∧ t.pc = s.pc + 2 ∧ OnlyRegs s t [x, 15]) ∧
    (∃ t, exec (.subn x y) s = .next t ∧
      (x ≠ 15 → (t.reg x).toNat = ((s.reg y).toNat + 256 - (s.reg x).toNat) % 256) ∧
      t.reg 15 = (if (s.reg y).toNat > (s.reg x).toNat then 1 else 0) ∧ t.pc = s.pc + 2 ∧ OnlyRegs s t [x, 15])

/-- R179 and R181: 8xy6 and 8xyE shift Vx by one in place, whatever y is, and VF is the bit shifted out. -/
def Obligations.ShiftsMoveByOneBit : Prop :=
  HasPattern 0xF00F 0x8006 (fun w => .shr (xOf w) (yOf w)) ∧ HasPattern 0xF00F 0x800E (fun w => .shl (xOf w) (yOf w)) ∧
  ∀ (s : State) (x y : Reg),
    (∃ t, exec (.shr x y) s = .next t ∧ (x ≠ 15 → (t.reg x).toNat = (s.reg x).toNat / 2) ∧
      (t.reg 15).toNat = (s.reg x).toNat % 2 ∧ t.pc = s.pc + 2 ∧ OnlyRegs s t [x, 15]) ∧
    (∃ t, exec (.shl x y) s = .next t ∧ (x ≠ 15 → (t.reg x).toNat = 2 * (s.reg x).toNat % 256) ∧
      (t.reg 15).toNat = (s.reg x).toNat / 128 ∧ t.pc = s.pc + 2 ∧ OnlyRegs s t [x, 15])

/-- R182: Cxkk draws one byte of the generator, whatever kk is, and writes it AND kk. It holds for every RNG: `rngNext` is a
free function (log entry 2). -/
def Obligations.RandomDrawsOneByte : Prop :=
  HasPattern 0xF000 0xC000 (fun w => .rnd (xOf w) (kkOf w)) ∧
  ∀ (s : State) (x : Reg) (kk : Byte), ∃ t, exec (.rnd x kk) s = .next t ∧
    (∀ b, b < 8 → (t.reg x).getLsbD b = ((Config.rngNext s.rngs).1.getLsbD b && kk.getLsbD b)) ∧
    t.rngs = (Config.rngNext s.rngs).2 ∧ (∀ y, y ≠ x → t.reg y = s.reg y) ∧ t.pc = s.pc + 2 ∧
    t = { s with v := t.v, rngs := t.rngs, pc := t.pc } ∧ SameMemory s t

/-! Index and memory -/

/-- R200 and R204: Annn loads nnn into I; Fx29 loads the address of the glyph for Vx's low nibble. -/
def Obligations.IndexLoads : Prop :=
  HasPattern 0xF000 0xA000 (fun w => .ldI (nnnOf w)) ∧ HasPattern 0xF0FF 0xF029 (fun w => .ldF (xOf w)) ∧
  ∀ (s : State),
    (∀ nnn, ∃ t, exec (.ldI nnn) s = .next t ∧ t.i.toNat = nnn.toNat ∧ t.pc = s.pc + 2 ∧ OnlyIndex s t) ∧
    (∀ x, ∃ t, exec (.ldF x) s = .next t ∧ t.i.toNat = s.cfg.fontBase.toNat + 5 * ((s.reg x).toNat % 16) ∧
      t.pc = s.pc + 2 ∧ OnlyIndex s t)

/-- R202 and R203: Fx1E adds Vx to I modulo 2^16; VF is untouched unless FX1E_VF, and then tells whether the exact sum
exceeds 0xFFF. -/
def Obligations.AddToIndexWraps : Prop :=
  HasPattern 0xF0FF 0xF01E (fun w => .addI (xOf w)) ∧
  ∀ (s : State) (x : Reg), ∃ t, exec (.addI x) s = .next t ∧
    t.i.toNat = (s.i.toNat + (s.reg x).toNat) % 65536 ∧
    (s.cfg.fx1eVf = false → t.v = s.v) ∧
    (s.cfg.fx1eVf = true → t.reg 15 = if s.i.toNat + (s.reg x).toNat > 0xFFF then 1 else 0) ∧
    (∀ y, y ≠ 15 → t.reg y = s.reg y) ∧ t.pc = s.pc + 2 ∧ t = { s with i := t.i, v := t.v, pc := t.pc } ∧ SameMemory s t

/-- R205: Fx33 stores the decimal digits of Vx at I, I+1, I+2; if one is out of range it raises and stores none. -/
def Obligations.BcdStoresThreeDigits : Prop :=
  HasPattern 0xF0FF 0xF033 (fun w => .ldB (xOf w)) ∧
  ∀ (s : State) (x : Reg),
    (InRangeAtI s 3 → ∃ t, exec (.ldB x) s = .next t ∧
      (∀ a, s.ea s.i.toNat = some a → (t.byteAt a).toNat = (s.reg x).toNat / 100) ∧
      (∀ a, s.ea (s.i.toNat + 1) = some a → (t.byteAt a).toNat = (s.reg x).toNat / 10 % 10) ∧
      (∀ a, s.ea (s.i.toNat + 2) = some a → (t.byteAt a).toNat = (s.reg x).toNat % 10) ∧
      t.pc = s.pc + 2 ∧ OnlyBytesAtI s t 3) ∧
    (∀ j, FirstBadAtI s 3 j → exec (.ldB x) s = .next (Raised s 4 (BitVec.ofNat 32 (s.i.toNat + j))))

/-- R206: Fx55 stores V0..Vx at I, I+1, ... and leaves I; if one address is out of range it raises and stores none. -/
def Obligations.RegisterDumpStoresRegisters : Prop :=
  HasPattern 0xF0FF 0xF055 (fun w => .ldMemVx (xOf w)) ∧
  ∀ (s : State) (x : Reg),
    (InRangeAtI s (x.val + 1) → ∃ t, exec (.ldMemVx x) s = .next t ∧
      (∀ y : Reg, y ≤ x → ∀ a, s.ea (s.i.toNat + y.val) = some a → t.byteAt a = s.reg y) ∧
      t.pc = s.pc + 2 ∧ OnlyBytesAtI s t (x.val + 1)) ∧
    (∀ j, FirstBadAtI s (x.val + 1) j → exec (.ldMemVx x) s = .next (Raised s 4 (BitVec.ofNat 32 (s.i.toNat + j))))

/-- R207: Fx65 loads V0..Vx from I, I+1, ... and leaves I; if one address is out of range it raises and loads none. -/
def Obligations.RegisterLoadReadsMemory : Prop :=
  HasPattern 0xF0FF 0xF065 (fun w => .ldVxMem (xOf w)) ∧
  ∀ (s : State) (x : Reg),
    (InRangeAtI s (x.val + 1) → ∃ t, exec (.ldVxMem x) s = .next t ∧
      (∀ y : Reg, y ≤ x → ∀ a, s.ea (s.i.toNat + y.val) = some a → t.reg y = s.byteAt a) ∧
      (∀ y : Reg, x < y → t.reg y = s.reg y) ∧ t.pc = s.pc + 2 ∧
      t = { s with v := t.v, pc := t.pc } ∧ SameMemory s t) ∧
    (∀ j, FirstBadAtI s (x.val + 1) j → exec (.ldVxMem x) s = .next (Raised s 4 (BitVec.ofNat 32 (s.i.toNat + j))))

/-- 43_index_memory.md, corner cases of R207: Fx55 and then Fx65 with the same I and x restore V0..Vx, whatever the
registers were changed to in between. -/
def Obligations.DumpThenLoadRestoresRegisters : Prop :=
  ∀ (s : State) (x : Reg) (v : Vector Byte 16), InRangeAtI s (x.val + 1) →
    ∃ t u, exec (.ldMemVx x) s = .next t ∧ exec (.ldVxMem x) { t with v := v } = .next u ∧
      ∀ y : Reg, y ≤ x → u.reg y = s.reg y

/-- 20_memory.md section 7 (R89): a step that stores V0, V1, ... over the next instruction is followed by a fetch of V0 and
V1 as the new word. -/
def Obligations.StoredBytesAreFetchedNext : Prop :=
  ∀ (s : State) (x : Reg), s.Executes (.ldMemVx x) → 1 ≤ x.val → s.i = s.pc + 2 → InRangeAtI s (x.val + 1) →
    ∃ t, step s = .next t ∧ t.pc = s.pc + 2 ∧ t.fetchWord = .ok (wordOfBytes (s.reg 0) (s.reg 1))

/-! Timers and keys -/

/-- R250 to R252: Fx07 reads DT, Fx15 writes DT, Fx18 writes ST. -/
def Obligations.TimerInstructionsMoveBytes : Prop :=
  HasPattern 0xF0FF 0xF007 (fun w => .ldVxDt (xOf w)) ∧ HasPattern 0xF0FF 0xF015 (fun w => .ldDtVx (xOf w)) ∧
  HasPattern 0xF0FF 0xF018 (fun w => .ldStVx (xOf w)) ∧
  ∀ (s : State) (x : Reg),
    (∃ t, exec (.ldVxDt x) s = .next t ∧ t.reg x = s.dt ∧ t.pc = s.pc + 2 ∧ OnlyRegs s t [x]) ∧
    (∃ t, exec (.ldDtVx x) s = .next t ∧ t.dt = s.reg x ∧ t.pc = s.pc + 2 ∧ t = { s with dt := t.dt, pc := t.pc } ∧
      SameMemory s t) ∧
    (∃ t, exec (.ldStVx x) s = .next t ∧ t.st = s.reg x ∧ t.pc = s.pc + 2 ∧ t = { s with st := t.st, pc := t.pc } ∧
      SameMemory s t ∧ (t.soundOn = true ↔ s.reg x ≠ 0))

/-- R256: the entry of Fx0A arms the wait with x and a snapshot of the keypad, leaves pc, and never completes, even with a
key down. -/
def Obligations.KeyWaitEntryArmsTheWait : Prop :=
  HasPattern 0xF0FF 0xF00A (fun w => .ldVxK (xOf w)) ∧
  ∀ (s : State) (x : Reg),
    (∃ t, exec (.ldVxK x) s = .next t ∧ t.kwait = true ∧ t.kwaitX = x ∧ t.kprev = s.k ∧
      t = { s with kwait := t.kwait, kwaitX := t.kwaitX, kprev := t.kprev } ∧ SameMemory s t) ∧
    (s.Executes (.ldVxK x) → ∃ t, command .step s = .next (t, .stepped .waiting false) ∧ t.pc = s.pc ∧
      command .step t = .next (t, .stepped .waiting false))

/-! Host commands -/

/-- R295 and R296: TICK decrements each timer by 1 if it is not 0, and changes nothing else, in every state. -/
def Obligations.TickDecrementsBothTimers : Prop :=
  ∀ s : State, ∃ t, command .tick s = .next (t, .ok) ∧ t.dt.toNat = s.dt.toNat - 1 ∧ t.st.toNat = s.st.toNat - 1 ∧
    t = { s with dt := t.dt, st := t.st } ∧ SameMemory s t

/-- 60_exceptions.md section 5 (R295), by induction on the count: n TICKs take n from each timer and stop at 0. The vector
L1-11 is the case DT = 30, n = 60. -/
def Obligations.TicksCountDownToZero : Prop :=
  ∀ (n : Nat) (s : State), ∃ t, runCommands (List.replicate n .tick) s = .next t ∧
    t.dt.toNat = s.dt.toNat - n ∧ t.st.toNat = s.st.toNat - n ∧ t = { s with dt := t.dt, st := t.st }

/-- R304: SET_KEY writes one key and nothing else; above 15 it returns BAD_KEY and changes nothing. -/
def Obligations.SetKeyWritesOneKey : Prop :=
  ∀ (s : State) (pressed : Bool),
    (∀ key : Fin 16, ∃ t, command (.setKey key.val pressed) s = .next (t, .ok) ∧ t.k.getLsbD key = pressed ∧
      (∀ j : Fin 16, j ≠ key → t.k.getLsbD j = s.k.getLsbD j) ∧ t = { s with k := t.k } ∧ SameMemory s t) ∧
    (∀ key, 15 < key → command (.setKey key pressed) s = .next (s, .badKey))

/-- R90: LOAD_ROM writes byte j at 0x200 + j and nothing else; a ROM that does not fit changes nothing. -/
def Obligations.LoadRomCopiesOrRefuses : Prop :=
  ∀ (s : State) (rom : List Byte),
    (0x200 + rom.length ≤ 4096 → ∃ t, command (.loadRom rom) s = .next (t, .ok) ∧
      (∀ j (h : j < rom.length), t.byteAt (0x200 + j) = rom[j]) ∧
      (∀ a, (a < 0x200 ∨ 0x200 + rom.length ≤ a) → t.byteAt a = s.byteAt a) ∧ t = { s with mem := t.mem }) ∧
    (4096 < 0x200 + rom.length → command (.loadRom rom) s = .next (s, .romOverflow rom.length))

/-- R314: SKIP moves pc past the instruction that raised and clears the error, and nothing else; with no error it does
nothing. -/
def Obligations.SkipClearsTheError : Prop :=
  ∀ s : State,
    (s.errCode = 0 → command .skip s = .next (s, .nothingToSkip)) ∧
    (s.errCode ≠ 0 → ∃ t, command .skip s = .next (t, .ok) ∧ t.pc = s.errPc + 2 ∧ t.errCode = 0 ∧ t.errPc = 0 ∧
      t.errInfo = 0 ∧ t = { s with pc := t.pc, errCode := t.errCode, errPc := t.errPc, errInfo := t.errInfo } ∧
      SameMemory s t)

/-- R320 and R321: RESET(seed) leaves every field at its reset value, memory zero but for the font. -/
def Obligations.ResetLeavesTheListedValues : Prop :=
  ∀ (s : State) (seed : Nat), ∃ t, command (.reset seed) s = .next (t, .ok) ∧
    (∀ x, t.reg x = 0) ∧ t.i = 0 ∧ t.pc = 0x200 ∧ (∀ j : Fin 16, t.stack[j] = 0) ∧ t.sp = 0 ∧ t.dt = 0 ∧ t.st = 0 ∧
    (∀ px py, t.pixel px py = false) ∧ t.k = 0 ∧ t.kwait = false ∧ t.kwaitX = 0 ∧ t.kprev = 0 ∧ t.ir = 0 ∧
    t.errCode = 0 ∧ t.errPc = 0 ∧ t.errInfo = 0 ∧ t.rngs = Config.rngSeed seed ∧ t.cfg = s.cfg ∧
    (∀ j : Fin 80, t.byteAt (s.cfg.fontBase.toNat + j.val) = s.cfg.fontData[j]) ∧
    (∀ a, (a < s.cfg.fontBase.toNat ∨ s.cfg.fontBase.toNat + 80 ≤ a) → t.byteAt a = 0)

/-- R306 and R297: OBSERVE changes nothing and returns every field, all of memory, and SOUND_ON = (ST != 0). -/
def Obligations.ObserveReturnsTheWholeState : Prop :=
  ∀ s : State, ∃ o, command .observe s = .next (s, .view o) ∧
    o.v = s.v ∧ o.i = s.i ∧ o.pc = s.pc ∧ o.sp.toNat = s.sp.val ∧ o.stack = s.stack ∧ o.dt = s.dt ∧ o.st = s.st ∧
    o.mem.length = 4096 ∧ (∀ a, a < 4096 → o.mem[a]? = some (s.byteAt a)) ∧ o.fb = s.fb ∧ o.k = s.k ∧
    o.kwait = s.kwait ∧ o.kwaitX = s.kwaitX ∧ o.kprev = s.kprev ∧ o.ir = s.ir ∧
    o.errCode = s.errCode ∧ o.errPc = s.errPc ∧ o.errInfo = s.errInfo ∧ (o.soundOn = true ↔ s.st ≠ 0)

/-- R236: FB_DIRTY is 1 exactly when the step committed an 00E0 or a Dxyn. -/
def Obligations.FbDirtyMarksCommittedDraws : Prop :=
  ∀ (s t : State) (st : StepStatus) (d : Bool), command .step s = .next (t, .stepped st d) →
    (d = true ↔ t.errCode = 0 ∧ (s.Executes .cls ∨ ∃ x y n, s.Executes (.drw x y n)))

/-- R302: what STEP's status means, in terms of what the step did. -/
def Obligations.StepStatusTellsWhatHappened : Prop :=
  ∀ (s t : State) (st : StepStatus) (d : Bool), command .step s = .next (t, .stepped st d) →
    (st = .waiting ↔ (∃ x, s.Executes (.ldVxK x)) ∨ (s.errCode = 0 ∧ s.kwait = true ∧ ∀ j, ¬ s.NewKey j)) ∧
    (st = .error t.errCode t.errPc t.errInfo ↔ t.errCode ≠ 0) ∧
    (st = .ok ↔ t.errCode = 0 ∧ ((s.kwait = true ∧ ∃ j, s.NewKey j) ∨ ∃ i, s.Executes i ∧ ∀ x, i ≠ .ldVxK x))
end

