-- ==== Sys2Proof/Laws/Decode.lean ====
section
/-! SUPPORT. The fields of a packed word, and the fields of a word that matches a pattern of the opcode table. -/

namespace Sys2Proof.Laws

/-! The fields the encoder packs are the fields the decoder reads. -/

@[simp] theorem familyOf_packNnn (f : BitVec 4) (nnn : Addr) : familyOf (packNnn f nnn) = f := by
  unfold familyOf packNnn; ext i hi; simp; grind

@[simp] theorem nnnOf_packNnn (f : BitVec 4) (nnn : Addr) : nnnOf (packNnn f nnn) = nnn := by
  unfold nnnOf packNnn; ext i hi; simp; grind

@[simp] theorem familyOf_packXkk (f : BitVec 4) (x : Reg) (kk : Byte) : familyOf (packXkk f x kk) = f := by
  unfold familyOf packXkk; ext i hi; simp; grind

@[simp] theorem kkOf_packXkk (f : BitVec 4) (x : Reg) (kk : Byte) : kkOf (packXkk f x kk) = kk := by
  unfold kkOf packXkk; ext i hi; simp; grind

@[simp] theorem xOf_packXkk (f : BitVec 4) (x : Reg) (kk : Byte) : xOf (packXkk f x kk) = x := by
  have h : (packXkk f x kk).extractLsb' 8 4 = regBits x := by unfold packXkk; ext i hi; simp; grind
  simp [xOf, h, regBits]

@[simp] theorem familyOf_packXyn (f : BitVec 4) (x y : Reg) (n : BitVec 4) : familyOf (packXyn f x y n) = f := by
  unfold familyOf packXyn; ext i hi; simp; grind

@[simp] theorem selectorOf_packXyn (f : BitVec 4) (x y : Reg) (n : BitVec 4) : selectorOf (packXyn f x y n) = n := by
  unfold selectorOf packXyn; ext i hi; simp; grind

@[simp] theorem nOf_packXyn (f : BitVec 4) (x y n : Reg) : nOf (packXyn f x y (regBits n)) = n := by
  show (selectorOf (packXyn f x y (regBits n))).toFin = n
  simp [regBits]

@[simp] theorem xOf_packXyn (f : BitVec 4) (x y : Reg) (n : BitVec 4) : xOf (packXyn f x y n) = x := by
  have h : (packXyn f x y n).extractLsb' 8 4 = regBits x := by unfold packXyn; ext i hi; simp; grind
  simp [xOf, h, regBits]

@[simp] theorem yOf_packXyn (f : BitVec 4) (x y : Reg) (n : BitVec 4) : yOf (packXyn f x y n) = y := by
  have h : (packXyn f x y n).extractLsb' 4 4 = regBits y := by unfold packXyn; ext i hi; simp; grind
  simp [yOf, h, regBits]

/-! A word is what its fields pack to. -/

theorem packNnn_fields (w : Word) : packNnn (familyOf w) (nnnOf w) = w := by
  unfold packNnn familyOf nnnOf; ext i hi; simp; grind

theorem packXkk_fields (w : Word) : packXkk (familyOf w) (xOf w) (kkOf w) = w := by
  have h : regBits (xOf w) = w.extractLsb' 8 4 := rfl
  unfold packXkk familyOf kkOf; rw [h]; ext i hi; simp; grind

theorem packXyn_fields (w : Word) : packXyn (familyOf w) (xOf w) (yOf w) (selectorOf w) = w := by
  have h : regBits (xOf w) = w.extractLsb' 8 4 := rfl
  have h' : regBits (yOf w) = w.extractLsb' 4 4 := rfl
  unfold packXyn familyOf selectorOf; rw [h, h']; ext i hi; simp; grind

/-! The decoder's fields of a word that matches a mask and a pattern. -/

theorem familyOf_and (w m : Word) : familyOf (w &&& m) = familyOf w &&& familyOf m := by
  unfold familyOf; ext i hi; simp

theorem selectorOf_and (w m : Word) : selectorOf (w &&& m) = selectorOf w &&& selectorOf m := by
  unfold selectorOf; ext i hi; simp

theorem kkOf_and (w m : Word) : kkOf (w &&& m) = kkOf w &&& kkOf m := by
  unfold kkOf; ext i hi; simp

/-- A match on a mask that keeps the family fixes it. -/
theorem familyOf_of_match {w m p : Word} (h : w &&& m = p) (hm : familyOf m = 0xF#4) : familyOf w = familyOf p := by
  rw [← h, familyOf_and, hm]
  exact (BitVec.and_allOnes (w := 4)).symm

/-- A match on a mask that keeps the last nibble fixes it. -/
theorem selectorOf_of_match {w m p : Word} (h : w &&& m = p) (hm : selectorOf m = 0xF#4) :
    selectorOf w = selectorOf p := by
  rw [← h, selectorOf_and, hm]
  exact (BitVec.and_allOnes (w := 4)).symm

/-- A match on a mask that keeps the last byte fixes it. -/
theorem kkOf_of_match {w m p : Word} (h : w &&& m = p) (hm : kkOf m = 0xFF#8) : kkOf w = kkOf p := by
  rw [← h, kkOf_and, hm]
  exact (BitVec.and_allOnes (w := 8)).symm

/-! Big-endian bytes (R74). -/

@[simp] theorem wordOfBytes_bytes (w : Word) : wordOfBytes (w.extractLsb' 8 8) (w.extractLsb' 0 8) = w := by
  unfold wordOfBytes; ext i hi; simp; grind

theorem wordOfBytes_toNat (hi lo : Byte) : (wordOfBytes hi lo).toNat = 256 * hi.toNat + lo.toNat := by
  have h := lo.isLt
  simp only [wordOfBytes, BitVec.toNat_append]
  rw [Nat.shiftLeft_eq, Nat.mul_comm, ← Nat.two_pow_add_eq_or_of_lt h]

/-- What the byte-level decoder answers on the bytes of a word. -/
theorem decode_bytesOfWord (w : Word) (rest : List Byte) :
    decode (bytesOfWord w ++ rest) = match decodeWord w with
      | .ok i => .ok (i, rest)
      | .error e => .error e := by
  cases h : decodeWord w <;> simp [bytesOfWord, decode, h]

end Sys2Proof.Laws
end

