-- ==== Sys2Proof/Laws/Memory.lean ====
section
/-! SUPPORT. The laws of memory: a read after a write, the canonical form kept by every operation, and what EA and the
addresses of a span are. -/

namespace Sys2Proof.Laws

open Machine

/-! Lists of cells -/

theorem find_insert (m : Memory) (a x : Nat) (b : Byte) :
    Memory.find (Memory.insert m a b) x = if a = x then some b else Memory.find m x := by
  induction m with
  | nil => simp [Memory.insert, Memory.find]
  | cons kv rest ih =>
    obtain ⟨k, v⟩ := kv
    simp only [Memory.insert]
    split
    · simp [Memory.find]
    · split
      · subst_vars; simp only [Memory.find]; split <;> simp_all
      · simp only [Memory.find, ih]; split <;> simp_all

theorem find_erase (m : Memory) (a x : Nat) :
    Memory.find (Memory.erase m a) x = if a = x then none else Memory.find m x := by
  induction m with
  | nil => simp [Memory.erase, Memory.find]
  | cons kv rest ih =>
    obtain ⟨k, v⟩ := kv
    simp only [Memory.erase]
    split
    · simp only [ih, Memory.find]; split <;> simp_all
    · simp only [Memory.find, ih]; split <;> (simp_all; try omega)

/-- The one law of memory: a write changes the byte written and no other (R80). -/
theorem read_write (c : Config) (m : Memory) (a x : Nat) (b : Byte) :
    Memory.read c (Memory.write c m a b) x = if a = x then b else Memory.read c m x := by
  simp only [Memory.read, Memory.write]
  split
  · rw [find_erase]; split <;> simp_all
  · rw [find_insert]; split <;> simp_all

/-- A byte outside the written addresses reads as before. -/
theorem read_writeAll_of_notMem (c : Config) (x : Nat) :
    ∀ (ps : List Nat) (bs : List Byte) (m : Memory), x ∉ ps →
      Memory.read c (Memory.writeAll c m ps bs) x = Memory.read c m x
  | [], _, m, _ => by simp [Memory.writeAll]
  | p :: ps, [], m, _ => by simp [Memory.writeAll]
  | p :: ps, b :: bs, m, h => by
    simp only [List.mem_cons, not_or] at h
    rw [Memory.writeAll, read_writeAll_of_notMem c x ps bs _ h.2, read_write, if_neg (Ne.symm h.1)]

/-- Where the addresses are distinct, each written byte is read back. -/
theorem read_writeAll_get (c : Config) :
    ∀ (ps : List Nat) (bs : List Byte) (m : Memory) (j : Nat) (hp : j < ps.length) (hb : j < bs.length),
      ps.Nodup → Memory.read c (Memory.writeAll c m ps bs) ps[j] = bs[j]
  | [], _, _, _, hp, _, _ => by simp at hp
  | _ :: _, [], _, _, _, hb, _ => by simp at hb
  | p :: ps, b :: bs, m, 0, _, _, hn => by
    simp only [List.nodup_cons] at hn
    simp only [Memory.writeAll, List.getElem_cons_zero]
    rw [read_writeAll_of_notMem c p ps bs _ hn.1, read_write, if_pos rfl]
  | p :: ps, b :: bs, m, j + 1, hp, hb, hn => by
    simp only [List.nodup_cons] at hn
    simp only [Memory.writeAll, List.getElem_cons_succ]
    exact read_writeAll_get c ps bs _ j (by simpa using hp) (by simpa using hb) hn.2

/-! The canonical form -/

theorem wfFrom_mono (c : Config) {m : Memory} {lo hi : Nat} (h : Memory.wfFrom c hi m = true) (hle : lo ≤ hi) :
    Memory.wfFrom c lo m = true := by
  cases m with
  | nil => rfl
  | cons kv rest => simp only [Memory.wfFrom, Bool.and_eq_true, decide_eq_true_eq] at h ⊢; exact ⟨⟨⟨by omega, h.1.1.2⟩, h.1.2⟩, h.2⟩

theorem wfFrom_erase (c : Config) (a : Nat) :
    ∀ (m : Memory) (lo : Nat), Memory.wfFrom c lo m = true → Memory.wfFrom c lo (Memory.erase m a) = true
  | [], _, _ => rfl
  | (k, v) :: rest, lo, h => by
    simp only [Memory.wfFrom, Bool.and_eq_true, decide_eq_true_eq] at h
    have ih := wfFrom_erase c a rest (k + 1) h.2
    simp only [Memory.erase]
    split
    · exact wfFrom_mono c ih (by omega)
    · simp only [Memory.wfFrom, Bool.and_eq_true, decide_eq_true_eq]; exact ⟨h.1, ih⟩

theorem wfFrom_insert (c : Config) (a : Nat) (b : Byte) (ha : a < 4096) (hb : b ≠ Memory.unlisted c a) :
    ∀ (m : Memory) (lo : Nat), lo ≤ a → Memory.wfFrom c lo m = true →
      Memory.wfFrom c lo (Memory.insert m a b) = true
  | [], lo, hlo, _ => by simp [Memory.insert, Memory.wfFrom, hlo, ha, hb]
  | (k, v) :: rest, lo, hlo, h => by
    simp only [Memory.wfFrom, Bool.and_eq_true, decide_eq_true_eq] at h
    simp only [Memory.insert]
    split
    · simp only [Memory.wfFrom, Bool.and_eq_true, decide_eq_true_eq]
      exact ⟨⟨⟨hlo, ha⟩, hb⟩, ⟨⟨by omega, h.1.1.2⟩, h.1.2⟩, h.2⟩
    · split
      · subst_vars
        simp only [Memory.wfFrom, Bool.and_eq_true, decide_eq_true_eq]
        exact ⟨⟨⟨hlo, ha⟩, hb⟩, h.2⟩
      · simp only [Memory.wfFrom, Bool.and_eq_true, decide_eq_true_eq]
        exact ⟨h.1, wfFrom_insert c a b ha hb rest (k + 1) (by omega) h.2⟩

/-- A write inside memory keeps the canonical form. -/
theorem wf_write (c : Config) (m : Memory) (a : Nat) (b : Byte) (ha : a < 4096) (h : Memory.wf c m = true) :
    Memory.wf c (Memory.write c m a b) = true := by
  simp only [Memory.write]
  split
  · exact wfFrom_erase c a m 0 h
  · rename_i hb; exact wfFrom_insert c a b ha hb m 0 (by omega) h

/-- So does a list of writes. -/
theorem wf_writeAll (c : Config) :
    ∀ (ps : List Nat) (bs : List Byte) (m : Memory), (∀ p ∈ ps, p < 4096) → Memory.wf c m = true →
      Memory.wf c (Memory.writeAll c m ps bs) = true
  | [], _, m, _, h => by simpa [Memory.writeAll] using h
  | _ :: _, [], m, _, h => by simpa [Memory.writeAll] using h
  | p :: ps, b :: bs, m, hp, h =>
    wf_writeAll c ps bs _ (fun q hq => hp q (by simp [hq])) (wf_write c m p b (hp p (by simp)) h)

/-! Addresses -/

/-- Every address EA gives is a physical address (R85). -/
theorem ea_lt {mode : AddrMode} {a p : Nat} (h : ea mode a = some p) : p < 4096 := by
  unfold ea at h
  split at h
  · simp_all
  · cases mode <;> simp_all; omega

/-- In both modes EA is the address modulo 4096 where it is defined (R72). -/
theorem ea_eq_mod {mode : AddrMode} {a p : Nat} (h : ea mode a = some p) : p = a % 4096 := by
  unfold ea at h
  split at h
  · simp_all; omega
  · cases mode <;> simp_all

@[simp] theorem ea_of_lt {mode : AddrMode} {a : Nat} (h : a < 4096) : ea mode a = some a := by simp [ea, h]

@[simp] theorem span_length (base n : Nat) : (span base n).length = n := by
  induction n generalizing base with
  | zero => rfl
  | succ n ih => simp [span, ih]

@[simp] theorem span_get (base n j : Nat) (h : j < (span base n).length) : (span base n)[j] = base + j := by
  induction n generalizing base j with
  | zero => simp [span] at h
  | succ n ih =>
    cases j with
    | zero => simp [span]
    | succ j => simp only [span, List.getElem_cons_succ, ih]; omega

theorem mem_span {base n a : Nat} : a ∈ span base n ↔ base ≤ a ∧ a < base + n := by
  induction n generalizing base with
  | zero => simp [span]
  | succ n ih => simp only [span, List.mem_cons, ih]; omega

/-- What eaAll answers when it answers addresses: EA of each, in order. -/
theorem eaAll_ok {mode : AddrMode} : ∀ {as ps : List Nat}, eaAll mode as = .ok ps →
    ps.length = as.length ∧ ∀ j (hp : j < ps.length) (ha : j < as.length), ea mode as[j] = some ps[j]
  | [], ps, h => by cases h; simp
  | a :: as, ps, h => by
    simp only [eaAll] at h
    split at h
    · cases h
    · rename_i p hp
      split at h
      · rename_i qs hqs
        cases h
        obtain ⟨hl, hget⟩ := eaAll_ok hqs
        refine ⟨by simp [hl], fun j h1 h2 => ?_⟩
        cases j with
        | zero => simpa using hp
        | succ j => simpa using hget j (by simpa using h1) (by simpa using h2)
      · cases h

/-- What it answers when it answers an address out of range: the first one. -/
theorem eaAll_error {mode : AddrMode} : ∀ {as : List Nat} {e : Nat}, eaAll mode as = .error e →
    ∃ j, ∃ h : j < as.length, as[j] = e ∧ ea mode e = none ∧
      ∀ l (hl : l < j), (ea mode (as[l]'(by omega))).isSome = true
  | [], e, h => by cases h
  | a :: as, e, h => by
    simp only [eaAll] at h
    split at h
    · rename_i hn
      cases h
      exact ⟨0, by simp, rfl, hn, fun l hl => absurd hl (by omega)⟩
    · rename_i p hp
      split at h
      · cases h
      · rename_i e' he
        cases h
        obtain ⟨j, hj, h1, h2, h3⟩ := eaAll_error he
        refine ⟨j + 1, by simpa using hj, by simpa using h1, h2, fun l hl => ?_⟩
        cases l with
        | zero => simp [hp]
        | succ l => simpa using h3 l (by omega)

/-- Where every address is in range, eaAll answers. -/
theorem eaAll_of_inRange {mode : AddrMode} : ∀ {as : List Nat}, (∀ a ∈ as, (ea mode a).isSome = true) →
    ∃ ps, eaAll mode as = .ok ps
  | [], _ => ⟨[], rfl⟩
  | a :: as, h => by
    obtain ⟨p, hp⟩ := Option.isSome_iff_exists.mp (h a (by simp))
    obtain ⟨ps, hps⟩ := eaAll_of_inRange (as := as) (fun x hx => h x (by simp [hx]))
    exact ⟨p :: ps, by simp [eaAll, hp, hps]⟩

/-- Every address eaAll answers is physical. -/
theorem eaAll_lt {mode : AddrMode} {as ps : List Nat} (h : eaAll mode as = .ok ps) : ∀ p ∈ ps, p < 4096 := by
  intro p hp
  obtain ⟨j, hj, rfl⟩ := List.getElem_of_mem hp
  obtain ⟨hl, hget⟩ := eaAll_ok h
  exact ea_lt (hget j hj (by omega))

/-- The physical addresses of a span of at most 4096 bytes are distinct. -/
theorem eaAll_span_nodup {mode : AddrMode} {base n : Nat} {ps : List Nat} (hn : n ≤ 4096)
    (h : eaAll mode (span base n) = .ok ps) : ps.Nodup := by
  obtain ⟨hl, hget⟩ := eaAll_ok h
  simp only [span_length] at hl
  rw [List.nodup_iff_injective_get]
  intro ⟨a, ha⟩ ⟨b, hb⟩ hab
  have h1 := ea_eq_mod (hget a ha (by simp; omega))
  have h2 := ea_eq_mod (hget b hb (by simp; omega))
  simp only [span_get] at h1 h2
  simp only [List.get_eq_getElem] at hab
  simp only [Fin.mk.injEq]
  omega

end Sys2Proof.Laws
end

