-- ==== Sys2Proof/Laws/State.lean ====
section
/-! SUPPORT. One lemma for each field and each update of the state, true by unfolding the update once, so that no later
proof unfolds a record update; and what the accessors read after an update. -/

namespace Sys2Proof.Laws

open Machine

variable (s : State)

/-! `State.setReg` -/

@[simp] theorem setReg_v (x : Reg) (b : Byte) : (s.setReg x b).v = s.v.set x b := rfl
@[simp] theorem setReg_i (x : Reg) (b : Byte) : (s.setReg x b).i = s.i := rfl
@[simp] theorem setReg_pc (x : Reg) (b : Byte) : (s.setReg x b).pc = s.pc := rfl
@[simp] theorem setReg_stack (x : Reg) (b : Byte) : (s.setReg x b).stack = s.stack := rfl
@[simp] theorem setReg_sp (x : Reg) (b : Byte) : (s.setReg x b).sp = s.sp := rfl
@[simp] theorem setReg_dt (x : Reg) (b : Byte) : (s.setReg x b).dt = s.dt := rfl
@[simp] theorem setReg_st (x : Reg) (b : Byte) : (s.setReg x b).st = s.st := rfl
@[simp] theorem setReg_mem (x : Reg) (b : Byte) : (s.setReg x b).mem = s.mem := rfl
@[simp] theorem setReg_fb (x : Reg) (b : Byte) : (s.setReg x b).fb = s.fb := rfl
@[simp] theorem setReg_k (x : Reg) (b : Byte) : (s.setReg x b).k = s.k := rfl
@[simp] theorem setReg_kwait (x : Reg) (b : Byte) : (s.setReg x b).kwait = s.kwait := rfl
@[simp] theorem setReg_kwaitX (x : Reg) (b : Byte) : (s.setReg x b).kwaitX = s.kwaitX := rfl
@[simp] theorem setReg_kprev (x : Reg) (b : Byte) : (s.setReg x b).kprev = s.kprev := rfl
@[simp] theorem setReg_ir (x : Reg) (b : Byte) : (s.setReg x b).ir = s.ir := rfl
@[simp] theorem setReg_errCode (x : Reg) (b : Byte) : (s.setReg x b).errCode = s.errCode := rfl
@[simp] theorem setReg_errPc (x : Reg) (b : Byte) : (s.setReg x b).errPc = s.errPc := rfl
@[simp] theorem setReg_errInfo (x : Reg) (b : Byte) : (s.setReg x b).errInfo = s.errInfo := rfl
@[simp] theorem setReg_rngs (x : Reg) (b : Byte) : (s.setReg x b).rngs = s.rngs := rfl
@[simp] theorem setReg_cfg (x : Reg) (b : Byte) : (s.setReg x b).cfg = s.cfg := rfl

/-! `State.setFlag` -/

@[simp] theorem setFlag_v (f : Byte) : (s.setFlag f).v = s.v.set (15 : Reg) f := rfl
@[simp] theorem setFlag_i (f : Byte) : (s.setFlag f).i = s.i := rfl
@[simp] theorem setFlag_pc (f : Byte) : (s.setFlag f).pc = s.pc := rfl
@[simp] theorem setFlag_stack (f : Byte) : (s.setFlag f).stack = s.stack := rfl
@[simp] theorem setFlag_sp (f : Byte) : (s.setFlag f).sp = s.sp := rfl
@[simp] theorem setFlag_dt (f : Byte) : (s.setFlag f).dt = s.dt := rfl
@[simp] theorem setFlag_st (f : Byte) : (s.setFlag f).st = s.st := rfl
@[simp] theorem setFlag_mem (f : Byte) : (s.setFlag f).mem = s.mem := rfl
@[simp] theorem setFlag_fb (f : Byte) : (s.setFlag f).fb = s.fb := rfl
@[simp] theorem setFlag_k (f : Byte) : (s.setFlag f).k = s.k := rfl
@[simp] theorem setFlag_kwait (f : Byte) : (s.setFlag f).kwait = s.kwait := rfl
@[simp] theorem setFlag_kwaitX (f : Byte) : (s.setFlag f).kwaitX = s.kwaitX := rfl
@[simp] theorem setFlag_kprev (f : Byte) : (s.setFlag f).kprev = s.kprev := rfl
@[simp] theorem setFlag_ir (f : Byte) : (s.setFlag f).ir = s.ir := rfl
@[simp] theorem setFlag_errCode (f : Byte) : (s.setFlag f).errCode = s.errCode := rfl
@[simp] theorem setFlag_errPc (f : Byte) : (s.setFlag f).errPc = s.errPc := rfl
@[simp] theorem setFlag_errInfo (f : Byte) : (s.setFlag f).errInfo = s.errInfo := rfl
@[simp] theorem setFlag_rngs (f : Byte) : (s.setFlag f).rngs = s.rngs := rfl
@[simp] theorem setFlag_cfg (f : Byte) : (s.setFlag f).cfg = s.cfg := rfl

/-! `State.jumpTo` -/

@[simp] theorem jumpTo_v (target : Word) : (s.jumpTo target).v = s.v := rfl
@[simp] theorem jumpTo_i (target : Word) : (s.jumpTo target).i = s.i := rfl
@[simp] theorem jumpTo_pc (target : Word) : (s.jumpTo target).pc = target := rfl
@[simp] theorem jumpTo_stack (target : Word) : (s.jumpTo target).stack = s.stack := rfl
@[simp] theorem jumpTo_sp (target : Word) : (s.jumpTo target).sp = s.sp := rfl
@[simp] theorem jumpTo_dt (target : Word) : (s.jumpTo target).dt = s.dt := rfl
@[simp] theorem jumpTo_st (target : Word) : (s.jumpTo target).st = s.st := rfl
@[simp] theorem jumpTo_mem (target : Word) : (s.jumpTo target).mem = s.mem := rfl
@[simp] theorem jumpTo_fb (target : Word) : (s.jumpTo target).fb = s.fb := rfl
@[simp] theorem jumpTo_k (target : Word) : (s.jumpTo target).k = s.k := rfl
@[simp] theorem jumpTo_kwait (target : Word) : (s.jumpTo target).kwait = s.kwait := rfl
@[simp] theorem jumpTo_kwaitX (target : Word) : (s.jumpTo target).kwaitX = s.kwaitX := rfl
@[simp] theorem jumpTo_kprev (target : Word) : (s.jumpTo target).kprev = s.kprev := rfl
@[simp] theorem jumpTo_ir (target : Word) : (s.jumpTo target).ir = s.ir := rfl
@[simp] theorem jumpTo_errCode (target : Word) : (s.jumpTo target).errCode = s.errCode := rfl
@[simp] theorem jumpTo_errPc (target : Word) : (s.jumpTo target).errPc = s.errPc := rfl
@[simp] theorem jumpTo_errInfo (target : Word) : (s.jumpTo target).errInfo = s.errInfo := rfl
@[simp] theorem jumpTo_rngs (target : Word) : (s.jumpTo target).rngs = s.rngs := rfl
@[simp] theorem jumpTo_cfg (target : Word) : (s.jumpTo target).cfg = s.cfg := rfl

/-! `State.advance` -/

@[simp] theorem advance_v : (s.advance).v = s.v := rfl
@[simp] theorem advance_i : (s.advance).i = s.i := rfl
@[simp] theorem advance_pc : (s.advance).pc = s.pc + 2 := rfl
@[simp] theorem advance_stack : (s.advance).stack = s.stack := rfl
@[simp] theorem advance_sp : (s.advance).sp = s.sp := rfl
@[simp] theorem advance_dt : (s.advance).dt = s.dt := rfl
@[simp] theorem advance_st : (s.advance).st = s.st := rfl
@[simp] theorem advance_mem : (s.advance).mem = s.mem := rfl
@[simp] theorem advance_fb : (s.advance).fb = s.fb := rfl
@[simp] theorem advance_k : (s.advance).k = s.k := rfl
@[simp] theorem advance_kwait : (s.advance).kwait = s.kwait := rfl
@[simp] theorem advance_kwaitX : (s.advance).kwaitX = s.kwaitX := rfl
@[simp] theorem advance_kprev : (s.advance).kprev = s.kprev := rfl
@[simp] theorem advance_ir : (s.advance).ir = s.ir := rfl
@[simp] theorem advance_errCode : (s.advance).errCode = s.errCode := rfl
@[simp] theorem advance_errPc : (s.advance).errPc = s.errPc := rfl
@[simp] theorem advance_errInfo : (s.advance).errInfo = s.errInfo := rfl
@[simp] theorem advance_rngs : (s.advance).rngs = s.rngs := rfl
@[simp] theorem advance_cfg : (s.advance).cfg = s.cfg := rfl

/-! `State.skipIf` -/

@[simp] theorem skipIf_v (c : Bool) : (s.skipIf c).v = s.v := rfl
@[simp] theorem skipIf_i (c : Bool) : (s.skipIf c).i = s.i := rfl
@[simp] theorem skipIf_pc (c : Bool) : (s.skipIf c).pc = if c then s.next + 2 else s.next := rfl
@[simp] theorem skipIf_stack (c : Bool) : (s.skipIf c).stack = s.stack := rfl
@[simp] theorem skipIf_sp (c : Bool) : (s.skipIf c).sp = s.sp := rfl
@[simp] theorem skipIf_dt (c : Bool) : (s.skipIf c).dt = s.dt := rfl
@[simp] theorem skipIf_st (c : Bool) : (s.skipIf c).st = s.st := rfl
@[simp] theorem skipIf_mem (c : Bool) : (s.skipIf c).mem = s.mem := rfl
@[simp] theorem skipIf_fb (c : Bool) : (s.skipIf c).fb = s.fb := rfl
@[simp] theorem skipIf_k (c : Bool) : (s.skipIf c).k = s.k := rfl
@[simp] theorem skipIf_kwait (c : Bool) : (s.skipIf c).kwait = s.kwait := rfl
@[simp] theorem skipIf_kwaitX (c : Bool) : (s.skipIf c).kwaitX = s.kwaitX := rfl
@[simp] theorem skipIf_kprev (c : Bool) : (s.skipIf c).kprev = s.kprev := rfl
@[simp] theorem skipIf_ir (c : Bool) : (s.skipIf c).ir = s.ir := rfl
@[simp] theorem skipIf_errCode (c : Bool) : (s.skipIf c).errCode = s.errCode := rfl
@[simp] theorem skipIf_errPc (c : Bool) : (s.skipIf c).errPc = s.errPc := rfl
@[simp] theorem skipIf_errInfo (c : Bool) : (s.skipIf c).errInfo = s.errInfo := rfl
@[simp] theorem skipIf_rngs (c : Bool) : (s.skipIf c).rngs = s.rngs := rfl
@[simp] theorem skipIf_cfg (c : Bool) : (s.skipIf c).cfg = s.cfg := rfl

/-! `State.raise` -/

@[simp] theorem raise_v (kind : ErrorKind) (info : BitVec 32) : (s.raise kind info).v = s.v := rfl
@[simp] theorem raise_i (kind : ErrorKind) (info : BitVec 32) : (s.raise kind info).i = s.i := rfl
@[simp] theorem raise_pc (kind : ErrorKind) (info : BitVec 32) : (s.raise kind info).pc = s.pc := rfl
@[simp] theorem raise_stack (kind : ErrorKind) (info : BitVec 32) : (s.raise kind info).stack = s.stack := rfl
@[simp] theorem raise_sp (kind : ErrorKind) (info : BitVec 32) : (s.raise kind info).sp = s.sp := rfl
@[simp] theorem raise_dt (kind : ErrorKind) (info : BitVec 32) : (s.raise kind info).dt = s.dt := rfl
@[simp] theorem raise_st (kind : ErrorKind) (info : BitVec 32) : (s.raise kind info).st = s.st := rfl
@[simp] theorem raise_mem (kind : ErrorKind) (info : BitVec 32) : (s.raise kind info).mem = s.mem := rfl
@[simp] theorem raise_fb (kind : ErrorKind) (info : BitVec 32) : (s.raise kind info).fb = s.fb := rfl
@[simp] theorem raise_k (kind : ErrorKind) (info : BitVec 32) : (s.raise kind info).k = s.k := rfl
@[simp] theorem raise_kwait (kind : ErrorKind) (info : BitVec 32) : (s.raise kind info).kwait = s.kwait := rfl
@[simp] theorem raise_kwaitX (kind : ErrorKind) (info : BitVec 32) : (s.raise kind info).kwaitX = s.kwaitX := rfl
@[simp] theorem raise_kprev (kind : ErrorKind) (info : BitVec 32) : (s.raise kind info).kprev = s.kprev := rfl
@[simp] theorem raise_ir (kind : ErrorKind) (info : BitVec 32) : (s.raise kind info).ir = s.ir := rfl
@[simp] theorem raise_errCode (kind : ErrorKind) (info : BitVec 32) : (s.raise kind info).errCode = errorCodeOf kind := rfl
@[simp] theorem raise_errPc (kind : ErrorKind) (info : BitVec 32) : (s.raise kind info).errPc = s.pc := rfl
@[simp] theorem raise_errInfo (kind : ErrorKind) (info : BitVec 32) : (s.raise kind info).errInfo = info := rfl
@[simp] theorem raise_rngs (kind : ErrorKind) (info : BitVec 32) : (s.raise kind info).rngs = s.rngs := rfl
@[simp] theorem raise_cfg (kind : ErrorKind) (info : BitVec 32) : (s.raise kind info).cfg = s.cfg := rfl

/-! `State.raiseAddress` -/

@[simp] theorem raiseAddress_v (a : Nat) : (s.raiseAddress a).v = s.v := rfl
@[simp] theorem raiseAddress_i (a : Nat) : (s.raiseAddress a).i = s.i := rfl
@[simp] theorem raiseAddress_pc (a : Nat) : (s.raiseAddress a).pc = s.pc := rfl
@[simp] theorem raiseAddress_stack (a : Nat) : (s.raiseAddress a).stack = s.stack := rfl
@[simp] theorem raiseAddress_sp (a : Nat) : (s.raiseAddress a).sp = s.sp := rfl
@[simp] theorem raiseAddress_dt (a : Nat) : (s.raiseAddress a).dt = s.dt := rfl
@[simp] theorem raiseAddress_st (a : Nat) : (s.raiseAddress a).st = s.st := rfl
@[simp] theorem raiseAddress_mem (a : Nat) : (s.raiseAddress a).mem = s.mem := rfl
@[simp] theorem raiseAddress_fb (a : Nat) : (s.raiseAddress a).fb = s.fb := rfl
@[simp] theorem raiseAddress_k (a : Nat) : (s.raiseAddress a).k = s.k := rfl
@[simp] theorem raiseAddress_kwait (a : Nat) : (s.raiseAddress a).kwait = s.kwait := rfl
@[simp] theorem raiseAddress_kwaitX (a : Nat) : (s.raiseAddress a).kwaitX = s.kwaitX := rfl
@[simp] theorem raiseAddress_kprev (a : Nat) : (s.raiseAddress a).kprev = s.kprev := rfl
@[simp] theorem raiseAddress_ir (a : Nat) : (s.raiseAddress a).ir = s.ir := rfl
@[simp] theorem raiseAddress_errCode (a : Nat) : (s.raiseAddress a).errCode = 4 := rfl
@[simp] theorem raiseAddress_errPc (a : Nat) : (s.raiseAddress a).errPc = s.pc := rfl
@[simp] theorem raiseAddress_errInfo (a : Nat) : (s.raiseAddress a).errInfo = BitVec.ofNat 32 a := rfl
@[simp] theorem raiseAddress_rngs (a : Nat) : (s.raiseAddress a).rngs = s.rngs := rfl
@[simp] theorem raiseAddress_cfg (a : Nat) : (s.raiseAddress a).cfg = s.cfg := rfl

/-! `State.raiseKey` -/

@[simp] theorem raiseKey_v (x : Reg) : (s.raiseKey x).v = s.v := rfl
@[simp] theorem raiseKey_i (x : Reg) : (s.raiseKey x).i = s.i := rfl
@[simp] theorem raiseKey_pc (x : Reg) : (s.raiseKey x).pc = s.pc := rfl
@[simp] theorem raiseKey_stack (x : Reg) : (s.raiseKey x).stack = s.stack := rfl
@[simp] theorem raiseKey_sp (x : Reg) : (s.raiseKey x).sp = s.sp := rfl
@[simp] theorem raiseKey_dt (x : Reg) : (s.raiseKey x).dt = s.dt := rfl
@[simp] theorem raiseKey_st (x : Reg) : (s.raiseKey x).st = s.st := rfl
@[simp] theorem raiseKey_mem (x : Reg) : (s.raiseKey x).mem = s.mem := rfl
@[simp] theorem raiseKey_fb (x : Reg) : (s.raiseKey x).fb = s.fb := rfl
@[simp] theorem raiseKey_k (x : Reg) : (s.raiseKey x).k = s.k := rfl
@[simp] theorem raiseKey_kwait (x : Reg) : (s.raiseKey x).kwait = s.kwait := rfl
@[simp] theorem raiseKey_kwaitX (x : Reg) : (s.raiseKey x).kwaitX = s.kwaitX := rfl
@[simp] theorem raiseKey_kprev (x : Reg) : (s.raiseKey x).kprev = s.kprev := rfl
@[simp] theorem raiseKey_ir (x : Reg) : (s.raiseKey x).ir = s.ir := rfl
@[simp] theorem raiseKey_errCode (x : Reg) : (s.raiseKey x).errCode = 5 := rfl
@[simp] theorem raiseKey_errPc (x : Reg) : (s.raiseKey x).errPc = s.pc := rfl
@[simp] theorem raiseKey_errInfo (x : Reg) : (s.raiseKey x).errInfo = (s.reg x).setWidth 32 := rfl
@[simp] theorem raiseKey_rngs (x : Reg) : (s.raiseKey x).rngs = s.rngs := rfl
@[simp] theorem raiseKey_cfg (x : Reg) : (s.raiseKey x).cfg = s.cfg := rfl

/-! `State.clearError` -/

@[simp] theorem clearError_v : (s.clearError).v = s.v := rfl
@[simp] theorem clearError_i : (s.clearError).i = s.i := rfl
@[simp] theorem clearError_pc : (s.clearError).pc = s.errPc + 2 := rfl
@[simp] theorem clearError_stack : (s.clearError).stack = s.stack := rfl
@[simp] theorem clearError_sp : (s.clearError).sp = s.sp := rfl
@[simp] theorem clearError_dt : (s.clearError).dt = s.dt := rfl
@[simp] theorem clearError_st : (s.clearError).st = s.st := rfl
@[simp] theorem clearError_mem : (s.clearError).mem = s.mem := rfl
@[simp] theorem clearError_fb : (s.clearError).fb = s.fb := rfl
@[simp] theorem clearError_k : (s.clearError).k = s.k := rfl
@[simp] theorem clearError_kwait : (s.clearError).kwait = s.kwait := rfl
@[simp] theorem clearError_kwaitX : (s.clearError).kwaitX = s.kwaitX := rfl
@[simp] theorem clearError_kprev : (s.clearError).kprev = s.kprev := rfl
@[simp] theorem clearError_ir : (s.clearError).ir = s.ir := rfl
@[simp] theorem clearError_errCode : (s.clearError).errCode = 0 := rfl
@[simp] theorem clearError_errPc : (s.clearError).errPc = 0 := rfl
@[simp] theorem clearError_errInfo : (s.clearError).errInfo = 0 := rfl
@[simp] theorem clearError_rngs : (s.clearError).rngs = s.rngs := rfl
@[simp] theorem clearError_cfg : (s.clearError).cfg = s.cfg := rfl

/-! `State.finish` -/

@[simp] theorem finish_v (x : Reg) (b : Byte) : (s.finish x b).v = s.v.set x b := rfl
@[simp] theorem finish_i (x : Reg) (b : Byte) : (s.finish x b).i = s.i := rfl
@[simp] theorem finish_pc (x : Reg) (b : Byte) : (s.finish x b).pc = s.pc + 2 := rfl
@[simp] theorem finish_stack (x : Reg) (b : Byte) : (s.finish x b).stack = s.stack := rfl
@[simp] theorem finish_sp (x : Reg) (b : Byte) : (s.finish x b).sp = s.sp := rfl
@[simp] theorem finish_dt (x : Reg) (b : Byte) : (s.finish x b).dt = s.dt := rfl
@[simp] theorem finish_st (x : Reg) (b : Byte) : (s.finish x b).st = s.st := rfl
@[simp] theorem finish_mem (x : Reg) (b : Byte) : (s.finish x b).mem = s.mem := rfl
@[simp] theorem finish_fb (x : Reg) (b : Byte) : (s.finish x b).fb = s.fb := rfl
@[simp] theorem finish_k (x : Reg) (b : Byte) : (s.finish x b).k = s.k := rfl
@[simp] theorem finish_kwait (x : Reg) (b : Byte) : (s.finish x b).kwait = s.kwait := rfl
@[simp] theorem finish_kwaitX (x : Reg) (b : Byte) : (s.finish x b).kwaitX = s.kwaitX := rfl
@[simp] theorem finish_kprev (x : Reg) (b : Byte) : (s.finish x b).kprev = s.kprev := rfl
@[simp] theorem finish_ir (x : Reg) (b : Byte) : (s.finish x b).ir = s.ir := rfl
@[simp] theorem finish_errCode (x : Reg) (b : Byte) : (s.finish x b).errCode = s.errCode := rfl
@[simp] theorem finish_errPc (x : Reg) (b : Byte) : (s.finish x b).errPc = s.errPc := rfl
@[simp] theorem finish_errInfo (x : Reg) (b : Byte) : (s.finish x b).errInfo = s.errInfo := rfl
@[simp] theorem finish_rngs (x : Reg) (b : Byte) : (s.finish x b).rngs = s.rngs := rfl
@[simp] theorem finish_cfg (x : Reg) (b : Byte) : (s.finish x b).cfg = s.cfg := rfl

/-! `State.finishFlag` -/

@[simp] theorem finishFlag_v (x : Reg) (b f : Byte) : (s.finishFlag x b f).v = (s.v.set x b).set (15 : Reg) f := rfl
@[simp] theorem finishFlag_i (x : Reg) (b f : Byte) : (s.finishFlag x b f).i = s.i := rfl
@[simp] theorem finishFlag_pc (x : Reg) (b f : Byte) : (s.finishFlag x b f).pc = s.pc + 2 := rfl
@[simp] theorem finishFlag_stack (x : Reg) (b f : Byte) : (s.finishFlag x b f).stack = s.stack := rfl
@[simp] theorem finishFlag_sp (x : Reg) (b f : Byte) : (s.finishFlag x b f).sp = s.sp := rfl
@[simp] theorem finishFlag_dt (x : Reg) (b f : Byte) : (s.finishFlag x b f).dt = s.dt := rfl
@[simp] theorem finishFlag_st (x : Reg) (b f : Byte) : (s.finishFlag x b f).st = s.st := rfl
@[simp] theorem finishFlag_mem (x : Reg) (b f : Byte) : (s.finishFlag x b f).mem = s.mem := rfl
@[simp] theorem finishFlag_fb (x : Reg) (b f : Byte) : (s.finishFlag x b f).fb = s.fb := rfl
@[simp] theorem finishFlag_k (x : Reg) (b f : Byte) : (s.finishFlag x b f).k = s.k := rfl
@[simp] theorem finishFlag_kwait (x : Reg) (b f : Byte) : (s.finishFlag x b f).kwait = s.kwait := rfl
@[simp] theorem finishFlag_kwaitX (x : Reg) (b f : Byte) : (s.finishFlag x b f).kwaitX = s.kwaitX := rfl
@[simp] theorem finishFlag_kprev (x : Reg) (b f : Byte) : (s.finishFlag x b f).kprev = s.kprev := rfl
@[simp] theorem finishFlag_ir (x : Reg) (b f : Byte) : (s.finishFlag x b f).ir = s.ir := rfl
@[simp] theorem finishFlag_errCode (x : Reg) (b f : Byte) : (s.finishFlag x b f).errCode = s.errCode := rfl
@[simp] theorem finishFlag_errPc (x : Reg) (b f : Byte) : (s.finishFlag x b f).errPc = s.errPc := rfl
@[simp] theorem finishFlag_errInfo (x : Reg) (b f : Byte) : (s.finishFlag x b f).errInfo = s.errInfo := rfl
@[simp] theorem finishFlag_rngs (x : Reg) (b f : Byte) : (s.finishFlag x b f).rngs = s.rngs := rfl
@[simp] theorem finishFlag_cfg (x : Reg) (b f : Byte) : (s.finishFlag x b f).cfg = s.cfg := rfl

/-! `State.finishI` -/

@[simp] theorem finishI_v (val : Word) : (s.finishI val).v = s.v := rfl
@[simp] theorem finishI_i (val : Word) : (s.finishI val).i = val := rfl
@[simp] theorem finishI_pc (val : Word) : (s.finishI val).pc = s.pc + 2 := rfl
@[simp] theorem finishI_stack (val : Word) : (s.finishI val).stack = s.stack := rfl
@[simp] theorem finishI_sp (val : Word) : (s.finishI val).sp = s.sp := rfl
@[simp] theorem finishI_dt (val : Word) : (s.finishI val).dt = s.dt := rfl
@[simp] theorem finishI_st (val : Word) : (s.finishI val).st = s.st := rfl
@[simp] theorem finishI_mem (val : Word) : (s.finishI val).mem = s.mem := rfl
@[simp] theorem finishI_fb (val : Word) : (s.finishI val).fb = s.fb := rfl
@[simp] theorem finishI_k (val : Word) : (s.finishI val).k = s.k := rfl
@[simp] theorem finishI_kwait (val : Word) : (s.finishI val).kwait = s.kwait := rfl
@[simp] theorem finishI_kwaitX (val : Word) : (s.finishI val).kwaitX = s.kwaitX := rfl
@[simp] theorem finishI_kprev (val : Word) : (s.finishI val).kprev = s.kprev := rfl
@[simp] theorem finishI_ir (val : Word) : (s.finishI val).ir = s.ir := rfl
@[simp] theorem finishI_errCode (val : Word) : (s.finishI val).errCode = s.errCode := rfl
@[simp] theorem finishI_errPc (val : Word) : (s.finishI val).errPc = s.errPc := rfl
@[simp] theorem finishI_errInfo (val : Word) : (s.finishI val).errInfo = s.errInfo := rfl
@[simp] theorem finishI_rngs (val : Word) : (s.finishI val).rngs = s.rngs := rfl
@[simp] theorem finishI_cfg (val : Word) : (s.finishI val).cfg = s.cfg := rfl

/-! `State.tick` -/

@[simp] theorem tick_v : (s.tick).v = s.v := rfl
@[simp] theorem tick_i : (s.tick).i = s.i := rfl
@[simp] theorem tick_pc : (s.tick).pc = s.pc := rfl
@[simp] theorem tick_stack : (s.tick).stack = s.stack := rfl
@[simp] theorem tick_sp : (s.tick).sp = s.sp := rfl
@[simp] theorem tick_dt : (s.tick).dt = tickDown s.dt := rfl
@[simp] theorem tick_st : (s.tick).st = tickDown s.st := rfl
@[simp] theorem tick_mem : (s.tick).mem = s.mem := rfl
@[simp] theorem tick_fb : (s.tick).fb = s.fb := rfl
@[simp] theorem tick_k : (s.tick).k = s.k := rfl
@[simp] theorem tick_kwait : (s.tick).kwait = s.kwait := rfl
@[simp] theorem tick_kwaitX : (s.tick).kwaitX = s.kwaitX := rfl
@[simp] theorem tick_kprev : (s.tick).kprev = s.kprev := rfl
@[simp] theorem tick_ir : (s.tick).ir = s.ir := rfl
@[simp] theorem tick_errCode : (s.tick).errCode = s.errCode := rfl
@[simp] theorem tick_errPc : (s.tick).errPc = s.errPc := rfl
@[simp] theorem tick_errInfo : (s.tick).errInfo = s.errInfo := rfl
@[simp] theorem tick_rngs : (s.tick).rngs = s.rngs := rfl
@[simp] theorem tick_cfg : (s.tick).cfg = s.cfg := rfl

/-! `State.putKey` -/

@[simp] theorem putKey_v (key : Nat) (pressed : Bool) : (s.putKey key pressed).v = s.v := rfl
@[simp] theorem putKey_i (key : Nat) (pressed : Bool) : (s.putKey key pressed).i = s.i := rfl
@[simp] theorem putKey_pc (key : Nat) (pressed : Bool) : (s.putKey key pressed).pc = s.pc := rfl
@[simp] theorem putKey_stack (key : Nat) (pressed : Bool) : (s.putKey key pressed).stack = s.stack := rfl
@[simp] theorem putKey_sp (key : Nat) (pressed : Bool) : (s.putKey key pressed).sp = s.sp := rfl
@[simp] theorem putKey_dt (key : Nat) (pressed : Bool) : (s.putKey key pressed).dt = s.dt := rfl
@[simp] theorem putKey_st (key : Nat) (pressed : Bool) : (s.putKey key pressed).st = s.st := rfl
@[simp] theorem putKey_mem (key : Nat) (pressed : Bool) : (s.putKey key pressed).mem = s.mem := rfl
@[simp] theorem putKey_fb (key : Nat) (pressed : Bool) : (s.putKey key pressed).fb = s.fb := rfl
@[simp] theorem putKey_k (key : Nat) (pressed : Bool) : (s.putKey key pressed).k = if pressed then s.k ||| BitVec.twoPow 16 key else s.k &&& ~~~(BitVec.twoPow 16 key) := rfl
@[simp] theorem putKey_kwait (key : Nat) (pressed : Bool) : (s.putKey key pressed).kwait = s.kwait := rfl
@[simp] theorem putKey_kwaitX (key : Nat) (pressed : Bool) : (s.putKey key pressed).kwaitX = s.kwaitX := rfl
@[simp] theorem putKey_kprev (key : Nat) (pressed : Bool) : (s.putKey key pressed).kprev = s.kprev := rfl
@[simp] theorem putKey_ir (key : Nat) (pressed : Bool) : (s.putKey key pressed).ir = s.ir := rfl
@[simp] theorem putKey_errCode (key : Nat) (pressed : Bool) : (s.putKey key pressed).errCode = s.errCode := rfl
@[simp] theorem putKey_errPc (key : Nat) (pressed : Bool) : (s.putKey key pressed).errPc = s.errPc := rfl
@[simp] theorem putKey_errInfo (key : Nat) (pressed : Bool) : (s.putKey key pressed).errInfo = s.errInfo := rfl
@[simp] theorem putKey_rngs (key : Nat) (pressed : Bool) : (s.putKey key pressed).rngs = s.rngs := rfl
@[simp] theorem putKey_cfg (key : Nat) (pressed : Bool) : (s.putKey key pressed).cfg = s.cfg := rfl

/-! `State.copyRom` -/

@[simp] theorem copyRom_v (bytes : List Byte) : (s.copyRom bytes).v = s.v := rfl
@[simp] theorem copyRom_i (bytes : List Byte) : (s.copyRom bytes).i = s.i := rfl
@[simp] theorem copyRom_pc (bytes : List Byte) : (s.copyRom bytes).pc = s.pc := rfl
@[simp] theorem copyRom_stack (bytes : List Byte) : (s.copyRom bytes).stack = s.stack := rfl
@[simp] theorem copyRom_sp (bytes : List Byte) : (s.copyRom bytes).sp = s.sp := rfl
@[simp] theorem copyRom_dt (bytes : List Byte) : (s.copyRom bytes).dt = s.dt := rfl
@[simp] theorem copyRom_st (bytes : List Byte) : (s.copyRom bytes).st = s.st := rfl
@[simp] theorem copyRom_mem (bytes : List Byte) : (s.copyRom bytes).mem = Memory.writeAll s.cfg s.mem (span 0x200 bytes.length) bytes := rfl
@[simp] theorem copyRom_fb (bytes : List Byte) : (s.copyRom bytes).fb = s.fb := rfl
@[simp] theorem copyRom_k (bytes : List Byte) : (s.copyRom bytes).k = s.k := rfl
@[simp] theorem copyRom_kwait (bytes : List Byte) : (s.copyRom bytes).kwait = s.kwait := rfl
@[simp] theorem copyRom_kwaitX (bytes : List Byte) : (s.copyRom bytes).kwaitX = s.kwaitX := rfl
@[simp] theorem copyRom_kprev (bytes : List Byte) : (s.copyRom bytes).kprev = s.kprev := rfl
@[simp] theorem copyRom_ir (bytes : List Byte) : (s.copyRom bytes).ir = s.ir := rfl
@[simp] theorem copyRom_errCode (bytes : List Byte) : (s.copyRom bytes).errCode = s.errCode := rfl
@[simp] theorem copyRom_errPc (bytes : List Byte) : (s.copyRom bytes).errPc = s.errPc := rfl
@[simp] theorem copyRom_errInfo (bytes : List Byte) : (s.copyRom bytes).errInfo = s.errInfo := rfl
@[simp] theorem copyRom_rngs (bytes : List Byte) : (s.copyRom bytes).rngs = s.rngs := rfl
@[simp] theorem copyRom_cfg (bytes : List Byte) : (s.copyRom bytes).cfg = s.cfg := rfl

/-! Accessors after an update that leaves what they read -/

@[simp] theorem setReg_byteAt (x : Reg) (b : Byte) (a : Nat) : (s.setReg x b).byteAt a = s.byteAt a := rfl
@[simp] theorem setReg_ea (x : Reg) (b : Byte) (a : Nat) : (s.setReg x b).ea a = s.ea a := rfl
@[simp] theorem setReg_pixel (x : Reg) (b : Byte) (px : Fin 64) (py : Fin 32) : (s.setReg x b).pixel px py = s.pixel px py := rfl
@[simp] theorem setFlag_byteAt (f : Byte) (a : Nat) : (s.setFlag f).byteAt a = s.byteAt a := rfl
@[simp] theorem setFlag_ea (f : Byte) (a : Nat) : (s.setFlag f).ea a = s.ea a := rfl
@[simp] theorem setFlag_pixel (f : Byte) (px : Fin 64) (py : Fin 32) : (s.setFlag f).pixel px py = s.pixel px py := rfl
@[simp] theorem jumpTo_reg (target : Word) (y : Reg) : (s.jumpTo target).reg y = s.reg y := rfl
@[simp] theorem jumpTo_byteAt (target : Word) (a : Nat) : (s.jumpTo target).byteAt a = s.byteAt a := rfl
@[simp] theorem jumpTo_ea (target : Word) (a : Nat) : (s.jumpTo target).ea a = s.ea a := rfl
@[simp] theorem jumpTo_pixel (target : Word) (px : Fin 64) (py : Fin 32) : (s.jumpTo target).pixel px py = s.pixel px py := rfl
@[simp] theorem advance_reg (y : Reg) : (s.advance).reg y = s.reg y := rfl
@[simp] theorem advance_byteAt (a : Nat) : (s.advance).byteAt a = s.byteAt a := rfl
@[simp] theorem advance_ea (a : Nat) : (s.advance).ea a = s.ea a := rfl
@[simp] theorem advance_pixel (px : Fin 64) (py : Fin 32) : (s.advance).pixel px py = s.pixel px py := rfl
@[simp] theorem skipIf_reg (c : Bool) (y : Reg) : (s.skipIf c).reg y = s.reg y := rfl
@[simp] theorem skipIf_byteAt (c : Bool) (a : Nat) : (s.skipIf c).byteAt a = s.byteAt a := rfl
@[simp] theorem skipIf_ea (c : Bool) (a : Nat) : (s.skipIf c).ea a = s.ea a := rfl
@[simp] theorem skipIf_pixel (c : Bool) (px : Fin 64) (py : Fin 32) : (s.skipIf c).pixel px py = s.pixel px py := rfl
@[simp] theorem raise_reg (kind : ErrorKind) (info : BitVec 32) (y : Reg) : (s.raise kind info).reg y = s.reg y := rfl
@[simp] theorem raise_byteAt (kind : ErrorKind) (info : BitVec 32) (a : Nat) : (s.raise kind info).byteAt a = s.byteAt a := rfl
@[simp] theorem raise_ea (kind : ErrorKind) (info : BitVec 32) (a : Nat) : (s.raise kind info).ea a = s.ea a := rfl
@[simp] theorem raise_pixel (kind : ErrorKind) (info : BitVec 32) (px : Fin 64) (py : Fin 32) : (s.raise kind info).pixel px py = s.pixel px py := rfl
@[simp] theorem raiseAddress_reg (a : Nat) (y : Reg) : (s.raiseAddress a).reg y = s.reg y := rfl
@[simp] theorem raiseAddress_byteAt (e a : Nat) : (s.raiseAddress e).byteAt a = s.byteAt a := rfl
@[simp] theorem raiseAddress_ea (e a : Nat) : (s.raiseAddress e).ea a = s.ea a := rfl
@[simp] theorem raiseAddress_pixel (a : Nat) (px : Fin 64) (py : Fin 32) : (s.raiseAddress a).pixel px py = s.pixel px py := rfl
@[simp] theorem raiseKey_reg (x : Reg) (y : Reg) : (s.raiseKey x).reg y = s.reg y := rfl
@[simp] theorem raiseKey_byteAt (x : Reg) (a : Nat) : (s.raiseKey x).byteAt a = s.byteAt a := rfl
@[simp] theorem raiseKey_ea (x : Reg) (a : Nat) : (s.raiseKey x).ea a = s.ea a := rfl
@[simp] theorem raiseKey_pixel (x : Reg) (px : Fin 64) (py : Fin 32) : (s.raiseKey x).pixel px py = s.pixel px py := rfl
@[simp] theorem clearError_reg (y : Reg) : (s.clearError).reg y = s.reg y := rfl
@[simp] theorem clearError_byteAt (a : Nat) : (s.clearError).byteAt a = s.byteAt a := rfl
@[simp] theorem clearError_ea (a : Nat) : (s.clearError).ea a = s.ea a := rfl
@[simp] theorem clearError_pixel (px : Fin 64) (py : Fin 32) : (s.clearError).pixel px py = s.pixel px py := rfl
@[simp] theorem finish_byteAt (x : Reg) (b : Byte) (a : Nat) : (s.finish x b).byteAt a = s.byteAt a := rfl
@[simp] theorem finish_ea (x : Reg) (b : Byte) (a : Nat) : (s.finish x b).ea a = s.ea a := rfl
@[simp] theorem finish_pixel (x : Reg) (b : Byte) (px : Fin 64) (py : Fin 32) : (s.finish x b).pixel px py = s.pixel px py := rfl
@[simp] theorem finishFlag_byteAt (x : Reg) (b f : Byte) (a : Nat) : (s.finishFlag x b f).byteAt a = s.byteAt a := rfl
@[simp] theorem finishFlag_ea (x : Reg) (b f : Byte) (a : Nat) : (s.finishFlag x b f).ea a = s.ea a := rfl
@[simp] theorem finishFlag_pixel (x : Reg) (b f : Byte) (px : Fin 64) (py : Fin 32) : (s.finishFlag x b f).pixel px py = s.pixel px py := rfl
@[simp] theorem finishI_reg (val : Word) (y : Reg) : (s.finishI val).reg y = s.reg y := rfl
@[simp] theorem finishI_byteAt (val : Word) (a : Nat) : (s.finishI val).byteAt a = s.byteAt a := rfl
@[simp] theorem finishI_ea (val : Word) (a : Nat) : (s.finishI val).ea a = s.ea a := rfl
@[simp] theorem finishI_pixel (val : Word) (px : Fin 64) (py : Fin 32) : (s.finishI val).pixel px py = s.pixel px py := rfl
@[simp] theorem tick_reg (y : Reg) : (s.tick).reg y = s.reg y := rfl
@[simp] theorem tick_byteAt (a : Nat) : (s.tick).byteAt a = s.byteAt a := rfl
@[simp] theorem tick_ea (a : Nat) : (s.tick).ea a = s.ea a := rfl
@[simp] theorem tick_pixel (px : Fin 64) (py : Fin 32) : (s.tick).pixel px py = s.pixel px py := rfl
@[simp] theorem putKey_reg (key : Nat) (pressed : Bool) (y : Reg) : (s.putKey key pressed).reg y = s.reg y := rfl
@[simp] theorem putKey_byteAt (key : Nat) (pressed : Bool) (a : Nat) : (s.putKey key pressed).byteAt a = s.byteAt a := rfl
@[simp] theorem putKey_ea (key : Nat) (pressed : Bool) (a : Nat) : (s.putKey key pressed).ea a = s.ea a := rfl
@[simp] theorem putKey_pixel (key : Nat) (pressed : Bool) (px : Fin 64) (py : Fin 32) : (s.putKey key pressed).pixel px py = s.pixel px py := rfl
@[simp] theorem copyRom_reg (bytes : List Byte) (y : Reg) : (s.copyRom bytes).reg y = s.reg y := rfl
@[simp] theorem copyRom_ea (bytes : List Byte) (a : Nat) : (s.copyRom bytes).ea a = s.ea a := rfl
@[simp] theorem copyRom_pixel (bytes : List Byte) (px : Fin 64) (py : Fin 32) : (s.copyRom bytes).pixel px py = s.pixel px py := rfl

/-! Registers -/

/-- Reading a register after a register write. -/
@[simp] theorem setReg_reg (x y : Reg) (b : Byte) : (s.setReg x b).reg y = if x = y then b else s.reg y := by
  simp [State.reg, State.setReg, Vector.getElem_set, Fin.ext_iff]

/-- Reading a register after the flag write. -/
@[simp] theorem setFlag_reg (y : Reg) (f : Byte) : (s.setFlag f).reg y = if 15 = y then f else s.reg y :=
  setReg_reg s 15 y f

@[simp] theorem finish_reg (x y : Reg) (b : Byte) : (s.finish x b).reg y = if x = y then b else s.reg y :=
  setReg_reg s x y b

/-- The flag is written last: it is what VF holds even when x = F (R184). -/
@[simp] theorem finishFlag_reg (x y : Reg) (b f : Byte) :
    (s.finishFlag x b f).reg y = if 15 = y then f else if x = y then b else s.reg y := by
  show ((s.setReg x b).setFlag f).reg y = _
  simp

/-- The state a raise leaves, written out (R288, R289). -/
theorem raise_eq (kind : ErrorKind) (info : BitVec 32) :
    s.raise kind info = { s with errCode := errorCodeOf kind, errPc := s.pc, errInfo := info } := rfl

/-- Every raised code is one of 1 to 5 (R280). -/
theorem errorCodeOf_ne_zero (kind : ErrorKind) : errorCodeOf kind ≠ 0 := by cases kind <;> decide

end Sys2Proof.Laws
end

