-- ==== Sys2Proof/Laws/Ops.lean ====
section
/-! SUPPORT. One lemma for each shared operation that says once what it can do, for the proofs to cite. -/

namespace Sys2Proof.Laws

open Machine

/-! Loads and stores -/

/-- A load that answers bytes: one for each address, in order, each read through EA. -/
theorem loadFrom_ok {s : State} {base n : Nat} {bs : List Byte} (h : s.loadFrom base n = .ok bs) :
    bs.length = n ∧ ∀ j (hj : j < bs.length), ∃ a, s.ea (base + j) = some a ∧ bs[j] = s.byteAt a := by
  unfold State.loadFrom at h
  split at h
  · rename_i ps hps
    cases h
    obtain ⟨hl, hget⟩ := eaAll_ok hps
    refine ⟨by simpa using hl, fun j hj => ⟨ps[j]'(by simpa using hj), ?_, by simp⟩⟩
    have := hget j (by simpa using hj) (by simp at hl hj ⊢; omega)
    simpa [State.ea] using this
  · cases h

/-- A load that answers an address: the first of its addresses that is out of range. -/
theorem loadFrom_error {s : State} {base n e : Nat} (h : s.loadFrom base n = .error e) :
    ∃ j, j < n ∧ e = base + j ∧ s.ea (base + j) = none ∧ ∀ l, l < j → (s.ea (base + l)).isSome = true := by
  unfold State.loadFrom at h
  split at h
  · cases h
  · rename_i e' he
    cases h
    obtain ⟨j, hj, h1, h2, h3⟩ := eaAll_error he
    have hj' : j < n := by simpa using hj
    simp only [span_get] at h1 h3
    subst h1
    exact ⟨j, hj', rfl, h2, fun l hl => h3 l hl⟩

/-- A load whose addresses are all in range answers bytes. -/
theorem loadFrom_of_inRange {s : State} {base n : Nat} (h : ∀ j, j < n → (s.ea (base + j)).isSome = true) :
    ∃ bs, s.loadFrom base n = .ok bs := by
  have : ∀ a ∈ span base n, (ea s.cfg.addrMode a).isSome = true := by
    intro a ha
    rw [mem_span] at ha
    have := h (a - base) (by omega)
    rwa [show base + (a - base) = a by omega] at this
  obtain ⟨ps, hps⟩ := eaAll_of_inRange this
  exact ⟨ps.map s.byteAt, by simp [State.loadFrom, hps]⟩

/-- A store that answers a memory: at most 4096 bytes, each read back at its own address, every other byte as before, and
the canonical form kept. -/
theorem storeFrom_ok {s : State} {base : Nat} {bs : List Byte} {m : Memory} (h : s.storeFrom base bs = .ok m)
    (hn : bs.length ≤ 4096) :
    (∀ j (hj : j < bs.length), ∃ a, s.ea (base + j) = some a ∧ Memory.read s.cfg m a = bs[j]) ∧
    (∀ a, (∀ j, j < bs.length → s.ea (base + j) ≠ some a) → Memory.read s.cfg m a = s.byteAt a) ∧
    (Memory.wf s.cfg s.mem = true → Memory.wf s.cfg m = true) := by
  unfold State.storeFrom at h
  split at h
  · rename_i ps hps
    cases h
    obtain ⟨hl, hget⟩ := eaAll_ok hps
    simp only [span_length] at hl
    have hnd := eaAll_span_nodup hn hps
    have hea : ∀ j (hj : j < ps.length), s.ea (base + j) = some ps[j] := by
      intro j hj
      have := hget j hj (by simp; omega)
      simpa [State.ea] using this
    refine ⟨fun j hj => ⟨ps[j]'(by omega), hea j (by omega), ?_⟩, fun a ha => ?_, fun hw => ?_⟩
    · exact read_writeAll_get s.cfg ps bs s.mem j (by omega) hj hnd
    · refine read_writeAll_of_notMem s.cfg a ps bs s.mem fun hmem => ?_
      obtain ⟨j, hj, rfl⟩ := List.getElem_of_mem hmem
      exact ha j (by omega) (hea j hj)
    · exact wf_writeAll s.cfg ps bs s.mem (eaAll_lt hps) hw
  · cases h

/-- A store that answers an address: the first of its addresses that is out of range. -/
theorem storeFrom_error {s : State} {base e : Nat} {bs : List Byte} (h : s.storeFrom base bs = .error e) :
    ∃ j, j < bs.length ∧ e = base + j ∧ s.ea (base + j) = none ∧ ∀ l, l < j → (s.ea (base + l)).isSome = true := by
  refine loadFrom_error (s := s) (n := bs.length) ?_
  unfold State.storeFrom at h
  unfold State.loadFrom
  split at h
  · cases h
  · cases h; rfl

/-- A store whose addresses are all in range answers a memory. -/
theorem storeFrom_of_inRange {s : State} {base : Nat} {bs : List Byte}
    (h : ∀ j, j < bs.length → (s.ea (base + j)).isSome = true) : ∃ m, s.storeFrom base bs = .ok m := by
  obtain ⟨xs, hx⟩ := loadFrom_of_inRange (s := s) (base := base) (n := bs.length) h
  unfold State.loadFrom at hx
  unfold State.storeFrom
  split at hx
  · exact ⟨_, rfl⟩
  · cases hx

/-- A load of a span whose first bad address is at offset j answers that address. -/
theorem loadFrom_firstBad {s : State} {base n j : Nat} (hj : j < n) (hbad : s.ea (base + j) = none)
    (hok : ∀ l, l < j → (s.ea (base + l)).isSome = true) : s.loadFrom base n = .error (base + j) := by
  cases hc : s.loadFrom base n with
  | ok bs =>
    obtain ⟨hl, h⟩ := loadFrom_ok hc
    obtain ⟨a, ha, _⟩ := h j (by omega)
    rw [hbad] at ha; cases ha
  | error e =>
    obtain ⟨k, hk, rfl, hb, hs⟩ := loadFrom_error hc
    rcases Nat.lt_trichotomy j k with h | h | h
    · have := hs j h; rw [hbad] at this; cases this
    · rw [h]
    · have := hok k h; rw [hb] at this; cases this

/-- The same for a store. -/
theorem storeFrom_firstBad {s : State} {base j : Nat} {bs : List Byte} (hj : j < bs.length)
    (hbad : s.ea (base + j) = none) (hok : ∀ l, l < j → (s.ea (base + l)).isSome = true) :
    s.storeFrom base bs = .error (base + j) := by
  have h := loadFrom_firstBad hj hbad hok
  unfold State.loadFrom at h
  unfold State.storeFrom
  split at h
  · cases h
  · cases h; rfl

/-! Fetch -/

/-- A fetch that answers a word: both bytes are in range, and the word is big-endian. -/
theorem fetchWord_ok {s : State} {w : Word} (h : s.fetchWord = .ok w) :
    ∃ hi lo, s.ea s.pc.toNat = some hi ∧ s.ea (s.pc.toNat + 1) = some lo ∧
      w = wordOfBytes (s.byteAt hi) (s.byteAt lo) := by
  unfold State.fetchWord at h
  split at h
  · cases h
  · split at h
    · cases h
    · cases h; exact ⟨_, _, ‹_›, ‹_›, rfl⟩

theorem fetchWord_of {s : State} {hi lo : Nat} (h1 : s.ea s.pc.toNat = some hi)
    (h2 : s.ea (s.pc.toNat + 1) = some lo) : s.fetchWord = .ok (wordOfBytes (s.byteAt hi) (s.byteAt lo)) := by
  simp [State.fetchWord, h1, h2]

/-! Call stack -/

theorem push_cases (s : State) (val : Word) :
    (s.push val = none ∧ s.sp.val = 16) ∨
    (∃ h : s.sp.val < 16, s.push val =
      some { s with stack := s.stack.set s.sp.val val h, sp := ⟨s.sp.val + 1, by omega⟩ }) := by
  unfold State.push
  split
  · exact .inr ⟨‹_›, rfl⟩
  · exact .inl ⟨rfl, by omega⟩

theorem pop_cases (s : State) :
    (s.pop = none ∧ s.sp.val = 0) ∨
    (∃ h : 0 < s.sp.val, s.pop =
      some (s.stack[s.sp.val - 1]'(by omega), { s with sp := ⟨s.sp.val - 1, by omega⟩ })) := by
  unfold State.pop
  split
  · exact .inr ⟨‹_›, rfl⟩
  · exact .inl ⟨rfl, by omega⟩

/-! Registers from memory -/

theorem setRegsFrom_get (v : Vector Byte 16) (k : Nat) (bs : List Byte) (y : Nat) (hy : y < 16) :
    (setRegsFrom v k bs)[y] = if h : k ≤ y ∧ y < k + bs.length then bs[y - k]'(by omega) else v[y] := by
  induction bs generalizing v k with
  | nil => simp only [setRegsFrom]; rw [dif_neg (by simp)]
  | cons b bs ih =>
    simp only [setRegsFrom, ih, Vector.getElem_setIfInBounds]
    rcases Nat.lt_trichotomy k y with h | h | h
    · rw [if_neg (by omega)]
      by_cases h2 : y < k + (b :: bs).length
      · rw [dif_pos (by simp at h2; omega), dif_pos (by simp at h2 ⊢; omega)]
        simp [List.getElem_cons, show y - k ≠ 0 by omega, show y - k - 1 = y - (k + 1) by omega]
      · rw [dif_neg (by simp at h2; omega), dif_neg (by simp at h2 ⊢; omega)]
    · subst h
      rw [dif_neg (by omega), dif_pos (by simp), if_pos rfl]
      simp
    · rw [if_neg (by omega), dif_neg (by omega), dif_neg (by omega)]

theorem regsUpTo_length (s : State) (x : Reg) : (s.regsUpTo x).length = x.val + 1 := by
  simp [State.regsUpTo]

theorem regsUpTo_get (s : State) (x : Reg) (j : Nat) (hj : j < (s.regsUpTo x).length) :
    (s.regsUpTo x)[j] = s.reg ⟨j, by rw [regsUpTo_length] at hj; omega⟩ := by
  simp [State.regsUpTo, State.reg]

/-! Pixels -/

/-- Reading a pixel after a pixel write. -/
theorem pixelOf_setPixel (fb : FrameBuffer) (px qx : Fin 64) (py qy : Fin 32) (p : Bool) :
    pixelOf (setPixel fb px py p) qx qy = if px = qx ∧ py = qy then p else pixelOf fb qx qy := by
  unfold pixelOf setPixel
  by_cases hy : py = qy
  · subst hy
    have hp := px.isLt
    by_cases hx : px = qx
    · subst hx
      cases p <;> simp [hp]
    · have hx' : px.val ≠ qx.val := fun h => hx (Fin.ext h)
      cases p <;> simp [hx, Ne.symm hx']
  · have hy' : ¬ py.val = qy.val := fun h => hy (Fin.ext h)
    simp [hy, hy']

/-! Keys -/

theorem lowestKeyFrom_none {t : Word} {key fuel : Nat} (h : lowestKeyFrom t key fuel = none) :
    ∀ j, key ≤ j → j < key + fuel → t.getLsbD j = false := by
  induction fuel generalizing key with
  | zero => intro j h1 h2; omega
  | succ n ih =>
    simp only [lowestKeyFrom] at h
    split at h
    · cases h
    · intro j h1 h2
      rcases Nat.eq_or_lt_of_le h1 with rfl | h3
      · simp_all
      · exact ih h j (by omega) (by omega)

theorem lowestKeyFrom_some {t : Word} {key fuel k : Nat} (h : lowestKeyFrom t key fuel = some k) :
    key ≤ k ∧ k < key + fuel ∧ t.getLsbD k = true ∧ ∀ j, key ≤ j → j < k → t.getLsbD j = false := by
  induction fuel generalizing key with
  | zero => cases h
  | succ n ih =>
    simp only [lowestKeyFrom] at h
    split at h
    · cases h; exact ⟨by omega, by omega, ‹_›, fun j h1 h2 => by omega⟩
    · obtain ⟨h1, h2, h3, h4⟩ := ih h
      refine ⟨by omega, by omega, h3, fun j h5 h6 => ?_⟩
      rcases Nat.eq_or_lt_of_le h5 with rfl | h7
      · simp_all
      · exact h4 j (by omega) h6

/-- A key is in T exactly when it went from released to pressed (R257). -/
theorem newKeys_get (s : State) (j : Fin 16) : s.newKeys.getLsbD j = true ↔ s.NewKey j := by
  simp [State.newKeys, State.NewKey, j.isLt]

/-- What the wait step looks for (R257): no new key, or the lowest one. -/
theorem lowestKey_cases (s : State) :
    (lowestKey s.newKeys = none ∧ ∀ j, ¬ s.NewKey j) ∨
    (∃ key : Fin 16, lowestKey s.newKeys = some key.val ∧ s.NewKey key ∧ ∀ j, j < key → ¬ s.NewKey j) := by
  cases h : lowestKey s.newKeys with
  | none =>
    refine .inl ⟨rfl, fun j hj => ?_⟩
    have := lowestKeyFrom_none h j (by omega) (by omega)
    rw [(newKeys_get s j).mpr hj] at this; cases this
  | some k =>
    obtain ⟨_, h2, h3, h4⟩ := lowestKeyFrom_some h
    refine .inr ⟨⟨k, by omega⟩, rfl, (newKeys_get s _).mp h3, fun j hj hn => ?_⟩
    have := h4 j (by omega) hj
    rw [(newKeys_get s j).mpr hn] at this; cases this

end Sys2Proof.Laws
end

