-- ==== Sys2Proof/Laws/Display.lean ====
section
/-! SUPPORT. What a draw does, pixel by pixel (44_display.md R230 to R235). Each pixel write stores the complement of the
pre-step pixel (R15), so no distinctness of the sprite's pixels is needed. -/

namespace Sys2Proof.Laws

open Machine

/-- The set bits of row r, byte b, among the columns cs, that land on (px, py). -/
def BitLands (ox oy r : Nat) (b : Byte) (cs : List Nat) (px : Fin 64) (py : Fin 32) : Prop :=
  ∃ c ∈ cs, b.getLsbD (7 - c) = true ∧ columnOf ox c = px ∧ rowOf oy r = py

theorem drawBits_pixel (pre : FrameBuffer) (ox oy r : Nat) (b : Byte) (px : Fin 64) (py : Fin 32) (cs : List Nat)
    (d : Drawing) :
    (BitLands ox oy r b cs px py → pixelOf (cs.foldl (drawBit pre ox oy r b) d).1 px py = !pixelOf pre px py) ∧
    (¬ BitLands ox oy r b cs px py →
      pixelOf (cs.foldl (drawBit pre ox oy r b) d).1 px py = pixelOf d.1 px py) := by
  induction cs generalizing d with
  | nil => simp [BitLands]
  | cons c cs ih =>
    simp only [List.foldl_cons]
    obtain ⟨ih1, ih2⟩ := ih (drawBit pre ox oy r b d c)
    constructor
    · rintro ⟨c', hc, hb, hx, hy⟩
      by_cases hr : BitLands ox oy r b cs px py
      · exact ih1 hr
      · rw [ih2 hr]
        rcases List.mem_cons.mp hc with rfl | hc
        · simp [drawBit, hb, pixelOf_setPixel, hx, hy]
        · exact absurd ⟨c', hc, hb, hx, hy⟩ hr
    · intro hn
      have hr : ¬ BitLands ox oy r b cs px py := fun ⟨c', hc, h⟩ => hn ⟨c', List.mem_cons_of_mem _ hc, h⟩
      rw [ih2 hr]
      unfold drawBit
      split
      · rename_i hb
        rw [pixelOf_setPixel, if_neg]
        rintro ⟨hx, hy⟩
        exact hn ⟨c, by simp, hb, hx, hy⟩
      · rfl

theorem drawBits_collide (pre : FrameBuffer) (ox oy r : Nat) (b : Byte) (cs : List Nat) (d : Drawing) :
    (cs.foldl (drawBit pre ox oy r b) d).2 = true ↔
      d.2 = true ∨ ∃ px py, BitLands ox oy r b cs px py ∧ pixelOf pre px py = true := by
  induction cs generalizing d with
  | nil => simp [BitLands]
  | cons c cs ih =>
    simp only [List.foldl_cons, ih]
    unfold drawBit BitLands
    split
    · rename_i hb
      simp only [Bool.or_eq_true, List.mem_cons]
      constructor
      · rintro ((h | h) | ⟨px, py, ⟨c', hc, h⟩, h'⟩)
        · exact .inl h
        · exact .inr ⟨_, _, ⟨c, .inl rfl, hb, rfl, rfl⟩, h⟩
        · exact .inr ⟨px, py, ⟨c', .inr hc, h⟩, h'⟩
      · rintro (h | ⟨px, py, ⟨c', rfl | hc, hb', rfl, rfl⟩, h'⟩)
        · exact .inl (.inl h)
        · exact .inl (.inr h')
        · exact .inr ⟨_, _, ⟨c', hc, hb', rfl, rfl⟩, h'⟩
    · rename_i hb
      simp only [List.mem_cons]
      constructor
      · rintro (h | ⟨px, py, ⟨c', hc, h⟩, h'⟩)
        · exact .inl h
        · exact .inr ⟨px, py, ⟨c', .inr hc, h⟩, h'⟩
      · rintro (h | ⟨px, py, ⟨c', rfl | hc, hb', h⟩, h'⟩)
        · exact .inl h
        · exact absurd hb' hb
        · exact .inr ⟨px, py, ⟨c', hc, hb', h⟩, h'⟩

/-- Some set bit of the sprite rows bs, the first of them row r, lands on (px, py). -/
def SpriteLands (ox oy r : Nat) (bs : List Byte) (px : Fin 64) (py : Fin 32) : Prop :=
  ∃ j, ∃ h : j < bs.length, BitLands ox oy (r + j) bs[j] [0, 1, 2, 3, 4, 5, 6, 7] px py

theorem spriteLands_cons (ox oy r : Nat) (b : Byte) (bs : List Byte) (px : Fin 64) (py : Fin 32) :
    SpriteLands ox oy r (b :: bs) px py ↔
      BitLands ox oy r b [0, 1, 2, 3, 4, 5, 6, 7] px py ∨ SpriteLands ox oy (r + 1) bs px py := by
  constructor
  · rintro ⟨j, hj, h⟩
    cases j with
    | zero => exact .inl h
    | succ j => exact .inr ⟨j, by simpa using hj, by simpa [Nat.add_assoc, Nat.add_comm 1 j] using h⟩
  · rintro (h | ⟨j, hj, h⟩)
    · exact ⟨0, by simp, h⟩
    · exact ⟨j + 1, by simpa using hj, by simpa [Nat.add_assoc, Nat.add_comm 1 j] using h⟩

theorem drawRows_pixel (pre : FrameBuffer) (ox oy : Nat) (px : Fin 64) (py : Fin 32) (bs : List Byte) (r : Nat)
    (d : Drawing) :
    (SpriteLands ox oy r bs px py → pixelOf (drawRows pre ox oy r bs d).1 px py = !pixelOf pre px py) ∧
    (¬ SpriteLands ox oy r bs px py → pixelOf (drawRows pre ox oy r bs d).1 px py = pixelOf d.1 px py) := by
  induction bs generalizing r d with
  | nil => exact ⟨fun ⟨j, hj, _⟩ => absurd hj (by simp), fun _ => rfl⟩
  | cons b bs ih =>
    simp only [drawRows, spriteLands_cons]
    obtain ⟨ih1, ih2⟩ := ih (r + 1) (drawRow pre ox oy r b d)
    obtain ⟨h1, h2⟩ := drawBits_pixel pre ox oy r b px py [0, 1, 2, 3, 4, 5, 6, 7] d
    by_cases hr : SpriteLands ox oy (r + 1) bs px py
    · exact ⟨fun _ => ih1 hr, fun h => absurd (.inr hr) h⟩
    · rw [ih2 hr]
      exact ⟨fun h => h1 (h.resolve_right hr), fun h => h2 fun h' => h (.inl h')⟩

theorem drawRows_collide (pre : FrameBuffer) (ox oy : Nat) (bs : List Byte) (r : Nat) (d : Drawing) :
    (drawRows pre ox oy r bs d).2 = true ↔
      d.2 = true ∨ ∃ px py, SpriteLands ox oy r bs px py ∧ pixelOf pre px py = true := by
  induction bs generalizing r d with
  | nil => simp [drawRows, SpriteLands]
  | cons b bs ih =>
    simp only [drawRows, ih, spriteLands_cons, drawRow, drawBits_collide]
    constructor
    · rintro ((h | ⟨px, py, h, h'⟩) | ⟨px, py, h, h'⟩)
      · exact .inl h
      · exact .inr ⟨px, py, .inl h, h'⟩
      · exact .inr ⟨px, py, .inr h, h'⟩
    · rintro (h | ⟨px, py, h | h, h'⟩)
      · exact .inl (.inl h)
      · exact .inl (.inr ⟨px, py, h, h'⟩)
      · exact .inr ⟨px, py, h, h'⟩

/-- The draw toggles exactly the pixels a set bit lands on (R232). -/
theorem drawSprite_pixel (pre : FrameBuffer) (ox oy : Nat) (bs : List Byte) (px : Fin 64) (py : Fin 32) :
    (SpriteLands ox oy 0 bs px py → pixelOf (drawSprite pre ox oy bs).1 px py = !pixelOf pre px py) ∧
    (¬ SpriteLands ox oy 0 bs px py → pixelOf (drawSprite pre ox oy bs).1 px py = pixelOf pre px py) :=
  drawRows_pixel pre ox oy px py bs 0 (pre, false)

/-- The draw collides exactly when a set bit lands on a set pixel (R232, R234). -/
theorem drawSprite_collide (pre : FrameBuffer) (ox oy : Nat) (bs : List Byte) :
    (drawSprite pre ox oy bs).2 = true ↔ ∃ px py, SpriteLands ox oy 0 bs px py ∧ pixelOf pre px py = true := by
  simp [drawSprite, drawRows_collide]

/-- The sprite the loaded bytes make is the sprite of the claims. -/
theorem spriteLands_iff {s : State} {n : Fin 16} {bs : List Byte} (h : s.loadAtI n.val = .ok bs) (x y : Reg)
    (px : Fin 64) (py : Fin 32) :
    SpriteLands (s.reg x).toNat (s.reg y).toNat 0 bs px py ↔ SpriteSets s x y n px py := by
  obtain ⟨hl, hget⟩ := loadFrom_ok h
  have hcol : ∀ c, columnOf (s.reg x).toNat c = px ↔ px.val = ((s.reg x).toNat + c) % 64 := by
    intro c; simp [columnOf, Fin.ext_iff, Fin.ofNat, eq_comm]
  have hrow : ∀ r, rowOf (s.reg y).toNat r = py ↔ py.val = ((s.reg y).toNat + r) % 32 := by
    intro r; simp [rowOf, Fin.ext_iff, Fin.ofNat, eq_comm]
  have hc8 : ∀ c, c ∈ [0, 1, 2, 3, 4, 5, 6, 7] ↔ c < 8 := by intro c; simp; omega
  constructor
  · rintro ⟨j, hj, c, hc, hb, hx, hy⟩
    obtain ⟨a, ha, hba⟩ := hget j hj
    rw [Nat.zero_add] at hy
    exact ⟨j, c, a, by omega, (hc8 c).mp hc, ha, hba ▸ hb, (hcol c).mp hx, (hrow j).mp hy⟩
  · rintro ⟨r, c, a, hr, hc, ha, hb, hx, hy⟩
    obtain ⟨a', ha', hba⟩ := hget r (by omega)
    rw [ha] at ha'
    cases ha'
    exact ⟨r, by omega, c, (hc8 c).mpr hc, hba ▸ hb, (hcol c).mpr hx, by rw [Nat.zero_add]; exact (hrow r).mpr hy⟩

end Sys2Proof.Laws
end

