-- ==== Sys2Proof/Laws/PerInstr.lean ====
section
/-! SUPPORT. Statements made for every instruction, one lemma a constructor. Family Encoding: an instruction's word matches
the mask and the match of its own row of spec/opcode_table.json. -/

namespace Sys2Proof.Laws.Encoding

/-- The mask and the match of the instruction's row, copied from spec/opcode_table.json. -/
def tableRow : Instr → Word × Word
  | .cls => (0xFFFF, 0x00E0)
  | .ret => (0xFFFF, 0x00EE)
  | .sys _ => (0xF000, 0x0000)
  | .jp _ => (0xF000, 0x1000)
  | .call _ => (0xF000, 0x2000)
  | .seImm _ _ => (0xF000, 0x3000)
  | .sneImm _ _ => (0xF000, 0x4000)
  | .seReg _ _ => (0xF00F, 0x5000)
  | .ldImm _ _ => (0xF000, 0x6000)
  | .addImm _ _ => (0xF000, 0x7000)
  | .ldReg _ _ => (0xF00F, 0x8000)
  | .orReg _ _ => (0xF00F, 0x8001)
  | .andReg _ _ => (0xF00F, 0x8002)
  | .xorReg _ _ => (0xF00F, 0x8003)
  | .addReg _ _ => (0xF00F, 0x8004)
  | .sub _ _ => (0xF00F, 0x8005)
  | .shr _ _ => (0xF00F, 0x8006)
  | .subn _ _ => (0xF00F, 0x8007)
  | .shl _ _ => (0xF00F, 0x800E)
  | .sneReg _ _ => (0xF00F, 0x9000)
  | .ldI _ => (0xF000, 0xA000)
  | .jpV0 _ => (0xF000, 0xB000)
  | .rnd _ _ => (0xF000, 0xC000)
  | .drw _ _ _ => (0xF000, 0xD000)
  | .skp _ => (0xF0FF, 0xE09E)
  | .sknp _ => (0xF0FF, 0xE0A1)
  | .ldVxDt _ => (0xF0FF, 0xF007)
  | .ldVxK _ => (0xF0FF, 0xF00A)
  | .ldDtVx _ => (0xF0FF, 0xF015)
  | .ldStVx _ => (0xF0FF, 0xF018)
  | .addI _ => (0xF0FF, 0xF01E)
  | .ldF _ => (0xF0FF, 0xF029)
  | .ldB _ => (0xF0FF, 0xF033)
  | .ldMemVx _ => (0xF0FF, 0xF055)
  | .ldVxMem _ => (0xF0FF, 0xF065)

/-- The word of a well-formed instruction matches its row. -/
def Statement (i : Instr) : Prop := i.wf = true → encode i &&& (tableRow i).1 = (tableRow i).2

theorem and_f (f : BitVec 4) : f &&& 0xF#4 = f := BitVec.and_allOnes (w := 4)

theorem packNnn_and (f : BitVec 4) (nnn : Addr) : packNnn f nnn &&& 0xF000 = packNnn f 0 := by
  show (f ++ nnn) &&& (0xF#4 ++ 0#12) = f ++ 0#12
  rw [BitVec.and_append, and_f, BitVec.and_zero]

theorem packXkk_and (f : BitVec 4) (x : Reg) (kk : Byte) : packXkk f x kk &&& 0xF000 = packXkk f 0 0 := by
  show (f ++ regBits x ++ kk) &&& (0xF#4 ++ 0#4 ++ 0#8) = f ++ 0#4 ++ 0#8
  rw [BitVec.and_append, BitVec.and_append, and_f, BitVec.and_zero, BitVec.and_zero]

theorem packX_and (f : BitVec 4) (x : Reg) (kk : Byte) : packXkk f x kk &&& 0xF0FF = packXkk f 0 kk := by
  show (f ++ regBits x ++ kk) &&& (0xF#4 ++ 0#4 ++ 0xFF#8) = f ++ 0#4 ++ kk
  rw [BitVec.and_append, BitVec.and_append, and_f, BitVec.and_zero, show kk &&& 0xFF#8 = kk from BitVec.and_allOnes]

theorem packXy_and (f : BitVec 4) (x y : Reg) (n : BitVec 4) : packXyn f x y n &&& 0xF00F = packXyn f 0 0 n := by
  show (f ++ regBits x ++ regBits y ++ n : BitVec (4 + 4 + 4 + 4)) &&& (0xF#4 ++ 0#4 ++ 0#4 ++ 0xF#4) =
    (f ++ 0#4 ++ 0#4 ++ n : BitVec (4 + 4 + 4 + 4))
  rw [BitVec.and_append, BitVec.and_append, BitVec.and_append, and_f, and_f, BitVec.and_zero, BitVec.and_zero]

theorem packXyn_and (f : BitVec 4) (x y : Reg) (n : BitVec 4) : packXyn f x y n &&& 0xF000 = packXyn f 0 0 0 := by
  show (f ++ regBits x ++ regBits y ++ n : BitVec (4 + 4 + 4 + 4)) &&& (0xF#4 ++ 0#4 ++ 0#4 ++ 0#4) =
    (f ++ 0#4 ++ 0#4 ++ 0#4 : BitVec (4 + 4 + 4 + 4))
  rw [BitVec.and_append, BitVec.and_append, BitVec.and_append, and_f, BitVec.and_zero, BitVec.and_zero, BitVec.and_zero]

theorem cls : Statement .cls := fun _ => by decide
theorem ret : Statement .ret := fun _ => by decide
theorem sys (nnn : Addr) : Statement (.sys nnn) := fun _ => (packNnn_and _ _).trans rfl
theorem jp (nnn : Addr) : Statement (.jp nnn) := fun _ => (packNnn_and _ _).trans rfl
theorem call (nnn : Addr) : Statement (.call nnn) := fun _ => (packNnn_and _ _).trans rfl
theorem seImm (x : Reg) (kk : Byte) : Statement (.seImm x kk) := fun _ => (packXkk_and _ _ _).trans rfl
theorem sneImm (x : Reg) (kk : Byte) : Statement (.sneImm x kk) := fun _ => (packXkk_and _ _ _).trans rfl
theorem seReg (x y : Reg) : Statement (.seReg x y) := fun _ => (packXy_and _ _ _ _).trans rfl
theorem ldImm (x : Reg) (kk : Byte) : Statement (.ldImm x kk) := fun _ => (packXkk_and _ _ _).trans rfl
theorem addImm (x : Reg) (kk : Byte) : Statement (.addImm x kk) := fun _ => (packXkk_and _ _ _).trans rfl
theorem ldReg (x y : Reg) : Statement (.ldReg x y) := fun _ => (packXy_and _ _ _ _).trans rfl
theorem orReg (x y : Reg) : Statement (.orReg x y) := fun _ => (packXy_and _ _ _ _).trans rfl
theorem andReg (x y : Reg) : Statement (.andReg x y) := fun _ => (packXy_and _ _ _ _).trans rfl
theorem xorReg (x y : Reg) : Statement (.xorReg x y) := fun _ => (packXy_and _ _ _ _).trans rfl
theorem addReg (x y : Reg) : Statement (.addReg x y) := fun _ => (packXy_and _ _ _ _).trans rfl
theorem sub (x y : Reg) : Statement (.sub x y) := fun _ => (packXy_and _ _ _ _).trans rfl
theorem shr (x y : Reg) : Statement (.shr x y) := fun _ => (packXy_and _ _ _ _).trans rfl
theorem subn (x y : Reg) : Statement (.subn x y) := fun _ => (packXy_and _ _ _ _).trans rfl
theorem shl (x y : Reg) : Statement (.shl x y) := fun _ => (packXy_and _ _ _ _).trans rfl
theorem sneReg (x y : Reg) : Statement (.sneReg x y) := fun _ => (packXy_and _ _ _ _).trans rfl
theorem ldI (nnn : Addr) : Statement (.ldI nnn) := fun _ => (packNnn_and _ _).trans rfl
theorem jpV0 (nnn : Addr) : Statement (.jpV0 nnn) := fun _ => (packNnn_and _ _).trans rfl
theorem rnd (x : Reg) (kk : Byte) : Statement (.rnd x kk) := fun _ => (packXkk_and _ _ _).trans rfl
theorem drw (x y : Reg) (n : Fin 16) : Statement (.drw x y n) := fun _ => (packXyn_and _ _ _ _).trans rfl
theorem skp (x : Reg) : Statement (.skp x) := fun _ => (packX_and _ _ _).trans rfl
theorem sknp (x : Reg) : Statement (.sknp x) := fun _ => (packX_and _ _ _).trans rfl
theorem ldVxDt (x : Reg) : Statement (.ldVxDt x) := fun _ => (packX_and _ _ _).trans rfl
theorem ldVxK (x : Reg) : Statement (.ldVxK x) := fun _ => (packX_and _ _ _).trans rfl
theorem ldDtVx (x : Reg) : Statement (.ldDtVx x) := fun _ => (packX_and _ _ _).trans rfl
theorem ldStVx (x : Reg) : Statement (.ldStVx x) := fun _ => (packX_and _ _ _).trans rfl
theorem addI (x : Reg) : Statement (.addI x) := fun _ => (packX_and _ _ _).trans rfl
theorem ldF (x : Reg) : Statement (.ldF x) := fun _ => (packX_and _ _ _).trans rfl
theorem ldB (x : Reg) : Statement (.ldB x) := fun _ => (packX_and _ _ _).trans rfl
theorem ldMemVx (x : Reg) : Statement (.ldMemVx x) := fun _ => (packX_and _ _ _).trans rfl
theorem ldVxMem (x : Reg) : Statement (.ldVxMem x) := fun _ => (packX_and _ _ _).trans rfl

end Sys2Proof.Laws.Encoding
end

