-- ==== Sys2Proof/Laws/Step.lean ====
section
/-! SUPPORT. What a meaning and a step can do, once, so that no proof about all steps unfolds them again. -/

namespace Sys2Proof.Laws

open Machine

/-- The five cases of a step (R111, R291). -/
theorem step_cases (s : State) :
    (s.errCode ≠ 0 ∧ step s = .next s) ∨
    (s.errCode = 0 ∧ s.kwait = true ∧ step s = .next s.waitStep) ∨
    (s.Running ∧ ∃ a, s.fetchWord = .error a ∧ step s = .next (s.raiseAddress a)) ∨
    (s.Running ∧ ∃ w e, s.fetchWord = .ok w ∧ decodeWord w = .error e ∧
      step s = .next (s.raise .unknownOpcode (w.setWidth 32))) ∨
    (s.Running ∧ ∃ w i, s.fetchWord = .ok w ∧ decodeWord w = .ok i ∧ step s = commitIr w (exec i s)) := by
  unfold step stepCycle
  by_cases he : s.errCode = 0
  · by_cases hk : s.kwait = true
    · exact .inr (.inl ⟨he, hk, by simp [he, hk]⟩)
    · have hr : s.Running := ⟨he, by simpa using hk⟩
      cases hf : s.fetchWord with
      | error a => exact .inr (.inr (.inl ⟨hr, a, rfl, by simp [he, hk]⟩))
      | ok w =>
        cases hd : decodeWord w with
        | error e => exact .inr (.inr (.inr (.inl ⟨hr, w, e, rfl, hd, by simp [he, hk, executeWord, hd]⟩)))
        | ok i => exact .inr (.inr (.inr (.inr ⟨hr, w, i, rfl, hd, by simp [he, hk, executeWord, hd]⟩)))
  · exact .inl ⟨he, if_pos he⟩

/-- The step of a running state on a decoded word. -/
theorem step_of_decoded {s : State} {w : Word} {i : Instr} (hr : s.Running) (hf : s.fetchWord = .ok w)
    (hd : decodeWord w = .ok i) : step s = commitIr w (exec i s) := by
  simp [step, stepCycle, hr.1, hr.2, hf, executeWord, hd]

/-- The two ways a store instruction ends (R205, R206). -/
theorem storeAndAdvance_cases (s : State) (bs : List Byte) :
    (∃ m, s.storeAtI bs = .ok m ∧ s.storeAndAdvance bs = { s with mem := m }.advance) ∨
    (∃ a, s.storeAtI bs = .error a ∧ s.storeAndAdvance bs = s.raiseAddress a) := by
  unfold State.storeAndAdvance
  cases h : s.storeAtI bs with
  | ok m => exact .inl ⟨m, rfl, rfl⟩
  | error a => exact .inr ⟨a, rfl, rfl⟩

/-- The wait step, by its keys (R257). -/
theorem waitStep_cases (s : State) :
    ((∀ j, ¬ s.NewKey j) ∧ s.waitStep = { s with kprev := s.k }) ∨
    (∃ key : Fin 16, s.NewKey key ∧ (∀ j, j < key → ¬ s.NewKey j) ∧
      s.waitStep = ({ s with kprev := s.k, kwait := false }.setReg s.kwaitX (BitVec.ofNat 8 key.val)).advance) := by
  unfold State.waitStep
  rcases lowestKey_cases s with ⟨h, hn⟩ | ⟨key, h, hk, hl⟩
  · exact .inl ⟨hn, by rw [h]⟩
  · exact .inr ⟨key, hk, hl, by rw [h]⟩

/-- An instruction raises, or leaves the error record, the keypad, IR and the parameters as they were. -/
theorem exec_cases (i : Instr) (s : State) :
    (∃ kind info, exec i s = .next (s.raise kind info)) ∨
    (∃ t, exec i s = .next t ∧ t.errCode = s.errCode ∧ t.errPc = s.errPc ∧ t.errInfo = s.errInfo ∧ t.k = s.k ∧
      t.ir = s.ir ∧ t.cfg = s.cfg) := by
  cases i with
  | ret =>
    simp only [exec, execRet]
    rcases pop_cases s with ⟨h, _⟩ | ⟨_, h⟩ <;> rw [h]
    · exact .inl ⟨_, _, rfl⟩
    · exact .inr ⟨_, rfl, rfl, rfl, rfl, rfl, rfl, rfl⟩
  | sys nnn => exact .inl ⟨_, _, rfl⟩
  | call nnn =>
    simp only [exec, execCall]
    rcases push_cases s s.next with ⟨h, _⟩ | ⟨_, h⟩ <;> rw [h]
    · exact .inl ⟨_, _, rfl⟩
    · exact .inr ⟨_, rfl, rfl, rfl, rfl, rfl, rfl, rfl⟩
  | drw x y n =>
    simp only [exec, execDrw]
    cases s.loadAtI n.val with
    | ok bs => exact .inr ⟨_, rfl, rfl, rfl, rfl, rfl, rfl, rfl⟩
    | error a => exact .inl ⟨_, _, rfl⟩
  | skp x =>
    simp only [exec, execSkp]
    cases s.keyIndex x with
    | some key => exact .inr ⟨_, rfl, rfl, rfl, rfl, rfl, rfl, rfl⟩
    | none => exact .inl ⟨_, _, rfl⟩
  | sknp x =>
    simp only [exec, execSknp]
    cases s.keyIndex x with
    | some key => exact .inr ⟨_, rfl, rfl, rfl, rfl, rfl, rfl, rfl⟩
    | none => exact .inl ⟨_, _, rfl⟩
  | addI x =>
    simp only [exec, execAddI]
    split <;> exact .inr ⟨_, rfl, rfl, rfl, rfl, rfl, rfl, rfl⟩
  | ldB x =>
    simp only [exec, execLdB]
    rcases storeAndAdvance_cases s (bcdDigits (s.reg x)) with ⟨m, _, h⟩ | ⟨a, _, h⟩ <;> rw [h]
    · exact .inr ⟨_, rfl, rfl, rfl, rfl, rfl, rfl, rfl⟩
    · exact .inl ⟨_, _, rfl⟩
  | ldMemVx x =>
    simp only [exec, execLdMemVx]
    rcases storeAndAdvance_cases s (s.regsUpTo x) with ⟨m, _, h⟩ | ⟨a, _, h⟩ <;> rw [h]
    · exact .inr ⟨_, rfl, rfl, rfl, rfl, rfl, rfl, rfl⟩
    · exact .inl ⟨_, _, rfl⟩
  | ldVxMem x =>
    simp only [exec, execLdVxMem]
    cases s.loadAtI (x.val + 1) with
    | ok bs => exact .inr ⟨_, rfl, rfl, rfl, rfl, rfl, rfl, rfl⟩
    | error a => exact .inl ⟨_, _, rfl⟩
  | _ => exact .inr ⟨_, rfl, rfl, rfl, rfl, rfl, rfl, rfl⟩

/-- The word `placeWord` stores is the word the next step fetches, where both bytes are in range. -/
theorem fetchWord_placeWord {s : State} (w : Word) {hi lo : Nat} (h1 : s.ea s.pc.toNat = some hi)
    (h2 : s.ea (s.pc.toNat + 1) = some lo) : (s.placeWord w).fetchWord = .ok w ∧ (s.placeWord w).Running := by
  have hne : hi ≠ lo := by
    have := ea_eq_mod h1
    have := ea_eq_mod h2
    omega
  simp only [State.ea] at h1 h2
  have hp : s.placeWord w = { s with
      errCode := 0, errPc := 0, errInfo := 0, kwait := false,
      mem := Memory.write s.cfg (Memory.write s.cfg s.mem hi (w.extractLsb' 8 8)) lo (w.extractLsb' 0 8) } := by
    simp [State.placeWord, State.place, State.ea, h1, h2]
  have hf : ∀ t : State, t.pc = s.pc → t.cfg = s.cfg → t.byteAt hi = w.extractLsb' 8 8 →
      t.byteAt lo = w.extractLsb' 0 8 → t.fetchWord = .ok w := by
    intro t hpc hc h3 h4
    rw [fetchWord_of (hi := hi) (lo := lo) (by rw [State.ea, hpc, hc, h1]) (by rw [State.ea, hpc, hc, h2]), h3, h4,
      wordOfBytes_bytes]
  refine ⟨hf _ (by rw [hp]) (by rw [hp]) ?_ ?_, by rw [hp]; exact ⟨rfl, rfl⟩⟩
  · rw [hp]; simp [State.byteAt, read_write, Ne.symm hne]
  · rw [hp]; simp [State.byteAt, read_write]

end Sys2Proof.Laws
end

