-- ==== Sys2Proof/Tests/Slice0.lean ====
section
/-! SUPPORT. The model's own tests. Expected results come from spec/95_test_vectors.md (its row is named in each comment)
or from the encoding lines of the rules; the witnesses at the end show that the hypotheses of the statements can be met. -/

namespace Sys2Proof.Tests

open Machine

/-! Helpers -/

/-- As after RESET, with the default parameters (95_test_vectors.md, Conventions). -/
def start : State := State.resetWith defaultConfig 7

/-- As `start`, with ADDR_MODE = mask12. -/
def startMask : State := State.resetWith { defaultConfig with addrMode := .mask12 } 7

/-- As `start`, with FX1E_VF = true. -/
def startFlag : State := State.resetWith { defaultConfig with fx1eVf := true } 7

/-- s with the byte b at the physical address a. -/
def poke (s : State) (a : Nat) (b : Byte) : State := { s with mem := Memory.write s.cfg s.mem a b }

/-- s with the pixel (x, y) set. -/
def light (s : State) (x : Fin 64) (y : Fin 32) : State := { s with fb := setPixel s.fb x y true }

/-- The state after one step, where the step answers one. -/
def after (s : State) : State :=
  match step s with
  | .next t => t
  | .fault _ => s
  | .refused _ => s

/-- One step on the word w at pc ends in OK with w in IR, in a state with the property p. -/
def runs (w : Word) (s : State) (p : State → Bool) : Bool :=
  let t := after (s.placeWord w)
  decide (t.status = .ok) && decide (t.ir = w) && p t

/-- One step on the word w at pc ends in ERROR(code, pc, info), with pc and IR as they were and the property p. -/
def raises (w : Word) (s : State) (code : BitVec 3) (info : BitVec 32) (p : State → Bool) : Bool :=
  let t := after (s.placeWord w)
  decide (t.status = .error code s.pc info) && decide (t.pc = s.pc) && decide (t.ir = s.ir) && p t

/-- The registers 0, 1, 2, ... set to the bytes. -/
def withRegs (s : State) (bs : List Byte) : State := { s with v := setRegsFrom s.v 0 bs }

/-! Well-formedness -/

/-- R104: 0x0E0 and 0x0EE are no SYS operands. -/
theorem test_wf_refuses_sys_cls : (Instr.sys 0x0E0).wf = false := by decide
theorem test_wf_refuses_sys_ret : (Instr.sys 0x0EE).wf = false := by decide
theorem test_wf_accepts_sys : (Instr.sys 0x000).wf = true ∧ (Instr.sys 0x0E1).wf = true ∧ (Instr.sys 0x1E0).wf = true := by
  decide
/-- R9: FONT_BASE + 80 <= 0x200, so 0x1B0 is the last base. -/
theorem test_wf_config : defaultConfig.wf = true ∧ ({ defaultConfig with fontBase := 0x1B0 } : Config).wf = true ∧
    ({ defaultConfig with fontBase := 0x1B1 } : Config).wf = false := by decide
/-- A list out of order, one with a repeat, one past 0xFFF, and one that lists a reset byte are no memories. -/
theorem test_wf_refuses_memories : Memory.wf defaultConfig [(0x301, 1), (0x300, 1)] = false ∧
    Memory.wf defaultConfig [(0x300, 1), (0x300, 2)] = false ∧ Memory.wf defaultConfig [(0x1000, 1)] = false ∧
    Memory.wf defaultConfig [(0x300, 0)] = false ∧ Memory.wf defaultConfig [(0x050, 0xF0)] = false := by decide
theorem test_wf_accepts_memory : Memory.wf defaultConfig [(0x000, 3), (0x050, 0), (0xFFE, 1), (0xFFF, 2)] = true := by decide

/-! Decoding. Each word is written out from the Encoding line of the instruction's rule. -/

theorem test_decode_family0 : decodeWord 0x00E0 = .ok .cls ∧ decodeWord 0x00EE = .ok .ret ∧
    decodeWord 0x0123 = .ok (.sys 0x123) ∧ decodeWord 0x01E0 = .ok (.sys 0x1E0) ∧ decodeWord 0x0000 = .ok (.sys 0) := by decide
theorem test_decode_nnn : decodeWord 0x1234 = .ok (.jp 0x234) ∧ decodeWord 0x2345 = .ok (.call 0x345) ∧
    decodeWord 0xA2F0 = .ok (.ldI 0x2F0) ∧ decodeWord 0xB321 = .ok (.jpV0 0x321) := by decide
theorem test_decode_xkk : decodeWord 0x3342 = .ok (.seImm 3 0x42) ∧ decodeWord 0x4A42 = .ok (.sneImm 0xA 0x42) ∧
    decodeWord 0x6A5C = .ok (.ldImm 0xA 0x5C) ∧ decodeWord 0x7F05 = .ok (.addImm 0xF 0x05) ∧
    decodeWord 0xC30F = .ok (.rnd 3 0x0F) := by decide
theorem test_decode_skips : decodeWord 0x5120 = .ok (.seReg 1 2) ∧ decodeWord 0x9EF0 = .ok (.sneReg 0xE 0xF) ∧
    decodeWord 0x5121 = .error (.unknownOpcode 0x5121) ∧ decodeWord 0x912F = .error (.unknownOpcode 0x912F) := by decide
theorem test_decode_family8_low : decodeWord 0x8120 = .ok (.ldReg 1 2) ∧ decodeWord 0x8121 = .ok (.orReg 1 2) ∧
    decodeWord 0x8122 = .ok (.andReg 1 2) ∧ decodeWord 0x8123 = .ok (.xorReg 1 2) ∧
    decodeWord 0x8124 = .ok (.addReg 1 2) := by decide
theorem test_decode_family8_high : decodeWord 0x8F15 = .ok (.sub 0xF 1) ∧ decodeWord 0x8256 = .ok (.shr 2 5) ∧
    decodeWord 0x8017 = .ok (.subn 0 1) ∧ decodeWord 0x825E = .ok (.shl 2 5) ∧
    decodeWord 0x8008 = .error (.unknownOpcode 0x8008) ∧ decodeWord 0x800F = .error (.unknownOpcode 0x800F) := by decide
theorem test_decode_drw : decodeWord 0xD12F = .ok (.drw 1 2 15) ∧ decodeWord 0xDFF0 = .ok (.drw 0xF 0xF 0) := by decide
theorem test_decode_keys : decodeWord 0xE19E = .ok (.skp 1) ∧ decodeWord 0xE1A1 = .ok (.sknp 1) ∧
    decodeWord 0xE19F = .error (.unknownOpcode 0xE19F) := by decide
theorem test_decode_familyF_timers : decodeWord 0xF507 = .ok (.ldVxDt 5) ∧ decodeWord 0xF30A = .ok (.ldVxK 3) ∧
    decodeWord 0xF515 = .ok (.ldDtVx 5) ∧ decodeWord 0xF218 = .ok (.ldStVx 2) := by decide
theorem test_decode_familyF_memory : decodeWord 0xF41E = .ok (.addI 4) ∧ decodeWord 0xF029 = .ok (.ldF 0) ∧
    decodeWord 0xF733 = .ok (.ldB 7) ∧ decodeWord 0xF255 = .ok (.ldMemVx 2) ∧ decodeWord 0xF265 = .ok (.ldVxMem 2) ∧
    decodeWord 0xF0FF = .error (.unknownOpcode 0xF0FF) := by decide
/-- R74 and R100: the high byte first, two bytes, never one. -/
theorem test_decode_bytes : decode [0x12, 0x34, 0x56] = .ok (.jp 0x234, [0x56]) ∧ decode [0x12] = .error .truncated ∧
    decode [] = .error .truncated := by decide
/-- The encoder on the words of P1 and P2 (95_test_vectors.md L3). -/
theorem test_encode : encode (.ldImm 0 0x9C) = 0x609C ∧ encode (.ldI 0x300) = 0xA300 ∧ encode (.ldB 0) = 0xF033 ∧
    encode (.drw 0 2 5) = 0xD025 ∧ encode (.addReg 0 1) = 0x8014 ∧ encode (.call 0x210) = 0x2210 := by decide
/-- The table's rows are asked for by their bits. -/
theorem test_decodeTableWord : decodeTableWord 16 0x1234 = some (.jp 0x234) ∧ decodeTableWord 16 0x5121 = none := by decide
/-- A placed word is the one step runs, whatever was latched before. -/
theorem test_withFetchWord : (after ((start.raise .unknownOpcode 0).withFetchWord 16 0x6A5C)).reg 0xA = 0x5C := by decide

/-! Control transfer -/

/-- D-01 -/
theorem test_cls : runs 0x00E0 ((light (light start 0 0) 63 31).setReg 15 1)
    (fun t => !t.pixel 0 0 && !t.pixel 63 31 && t.reg 15 == 1 && t.pc == 0x202) = true := by decide
/-- F-01 -/
theorem test_ret : runs 0x00EE { start with pc := 0x300, sp := 1, stack := start.stack.set 0 0x202 }
    (fun t => t.sp == 0 && t.pc == 0x202 && t.stack[0] == 0x202) = true := by decide
/-- F-02 -/
theorem test_ret_underflow : raises 0x00EE { start with pc := 0x300 } 3 0 (fun t => t.sp == 0) = true := by decide
/-- F-11, F-13 -/
theorem test_sys : raises 0x0123 start 1 0x0123 (fun _ => true) = true ∧ raises 0x01E0 start 1 0x01E0 (fun _ => true) = true := by
  decide
/-- F-03 -/
theorem test_jp : runs 0x1234 start (fun t => t.pc == 0x234) = true := by decide
/-- F-06 -/
theorem test_call : runs 0x2500 { start with pc := 0x400, sp := 15 }
    (fun t => t.stack[15] == 0x402 && t.sp == 16 && t.pc == 0x500) = true := by decide
/-- F-07 -/
theorem test_call_overflow : raises 0x2500 { start with pc := 0x400, sp := 16 } 2 0x402 (fun t => t.sp == 16) = true := by decide
/-- F-09, F-10 -/
theorem test_jpV0 : runs 0xBFFF (start.setReg 0 0xFF) (fun t => t.pc == 0x10FE) = true ∧
    runs 0xB321 ((start.setReg 0 0x05).setReg 3 0x77) (fun t => t.pc == 0x326) = true := by decide

/-! Skips -/

/-- S-01, S-02 -/
theorem test_seImm : runs 0x3342 (start.setReg 3 0x42) (fun t => t.pc == 0x204) = true ∧
    runs 0x3342 (start.setReg 3 0x41) (fun t => t.pc == 0x202) = true := by decide
/-- S-12, S-13 -/
theorem test_seImm_top : runs 0x3000 { start with pc := 0x0FFE } (fun t => t.pc == 0x1002) = true ∧
    runs 0x3000 { startMask with pc := 0xFFFE } (fun t => t.pc == 0x0002) = true := by decide
/-- S-03, S-04 -/
theorem test_sneImm : runs 0x4342 (start.setReg 3 0x41) (fun t => t.pc == 0x204) = true ∧
    runs 0x4342 (start.setReg 3 0x42) (fun t => t.pc == 0x202) = true := by decide
/-- S-06, S-07 -/
theorem test_seReg : runs 0x5120 (withRegs start [0, 7, 8]) (fun t => t.pc == 0x202) = true ∧
    runs 0x5110 (withRegs start [0, 7]) (fun t => t.pc == 0x204) = true := by decide
/-- S-09, S-10 -/
theorem test_sneReg : runs 0x9120 (withRegs start [0, 7, 8]) (fun t => t.pc == 0x204) = true ∧
    runs 0x9110 (withRegs start [0, 7]) (fun t => t.pc == 0x202) = true := by decide

/-! Registers -/

/-- A-01 -/
theorem test_ldImm : runs 0x6A5C start (fun t => t.reg 0xA == 0x5C && t.pc == 0x202) = true := by decide
/-- A-04 -/
theorem test_addImm : runs 0x7001 ((start.setReg 0 0xFF).setReg 15 1) (fun t => t.reg 0 == 0 && t.reg 15 == 1) = true := by decide
/-- A-05 -/
theorem test_ldReg : runs 0x8120 (withRegs start [0, 0x33, 0x0F]) (fun t => t.reg 1 == 0x0F && t.reg 2 == 0x0F) = true := by decide
/-- A-06 -/
theorem test_orReg : runs 0x8121 ((withRegs start [0, 0xF0, 0x0F]).setReg 15 1)
    (fun t => t.reg 1 == 0xFF && t.reg 15 == 1) = true := by decide
/-- A-07 -/
theorem test_andReg : runs 0x8122 ((withRegs start [0, 0xF0, 0x3C]).setReg 15 1)
    (fun t => t.reg 1 == 0x30 && t.reg 15 == 1) = true := by decide
/-- A-08 -/
theorem test_xorReg : runs 0x8123 ((withRegs start [0, 0xF0, 0x3C]).setReg 15 1)
    (fun t => t.reg 1 == 0xCC && t.reg 15 == 1) = true := by decide
/-- A-11, A-12 -/
theorem test_addReg : runs 0x8014 ((withRegs start [0x80, 0x7F]).setReg 15 1) (fun t => t.reg 0 == 0xFF && t.reg 15 == 0) = true ∧
    runs 0x8014 (withRegs start [0xFF, 1]) (fun t => t.reg 0 == 0 && t.reg 15 == 1) = true := by decide
/-- A-14, A-15 -/
theorem test_addReg_vf : runs 0x8F14 ((withRegs start [0, 2]).setReg 15 0xFF) (fun t => t.reg 15 == 1) = true ∧
    runs 0x81F4 ((withRegs start [0, 2]).setReg 15 0xFF) (fun t => t.reg 1 == 1 && t.reg 15 == 1) = true := by decide
/-- A-17, A-18 -/
theorem test_sub : runs 0x8015 (withRegs start [3, 0x0A]) (fun t => t.reg 0 == 0xF9 && t.reg 15 == 0) = true ∧
    runs 0x8015 ((withRegs start [5, 5]).setReg 15 1) (fun t => t.reg 0 == 0 && t.reg 15 == 0) = true := by decide
/-- A-20 -/
theorem test_sub_vf : runs 0x81F5 ((withRegs start [0, 5]).setReg 15 3) (fun t => t.reg 1 == 2 && t.reg 15 == 1) = true := by decide
/-- A-21, A-23 -/
theorem test_shr : runs 0x8256 (withRegs start [0, 0, 0x85]) (fun t => t.reg 2 == 0x42 && t.reg 15 == 1) = true ∧
    runs 0x8F06 (start.setReg 15 3) (fun t => t.reg 15 == 1) = true := by decide
/-- A-24, A-26 -/
theorem test_subn : runs 0x8017 (withRegs start [3, 0x0A]) (fun t => t.reg 0 == 7 && t.reg 15 == 1) = true ∧
    runs 0x8017 ((withRegs start [0x44, 0x44]).setReg 15 1) (fun t => t.reg 0 == 0 && t.reg 15 == 0) = true := by decide
/-- A-27, A-29 -/
theorem test_shl : runs 0x825E (withRegs start [0, 0, 0x85]) (fun t => t.reg 2 == 0x0A && t.reg 15 == 1) = true ∧
    runs 0x8F0E (start.setReg 15 0x80) (fun t => t.reg 15 == 1) = true := by decide
/-- A-33: kk = 0 gives 0 whatever byte is drawn. -/
theorem test_rnd_zero : (after ((start.setReg 3 0x55).placeWord 0xC300)).reg 3 = 0 := by
  show (Config.rngNext _).1 &&& 0 = 0
  exact BitVec.and_zero
/-- A-32, the fields that do not depend on the byte drawn. -/
theorem test_rnd_pc : runs 0xC30F start (fun t => t.pc == 0x202 && t.reg 15 == 0) = true := by decide

/-! Index and memory -/

/-- I-01 -/
theorem test_ldI : runs 0xA2F0 start (fun t => t.i == 0x2F0) = true := by decide
/-- I-03, I-06 -/
theorem test_addI : runs 0xF01E ({ start with i := 0xFFF }.setReg 0 1) (fun t => t.i == 0x1000 && t.reg 15 == 0) = true ∧
    runs 0xF01E ({ start with i := 0xFFFF }.setReg 0 1) (fun t => t.i == 0) = true := by decide
/-- I-04, I-05 -/
theorem test_addI_flag : runs 0xF01E ({ startFlag with i := 0xFFF }.setReg 0 1) (fun t => t.i == 0x1000 && t.reg 15 == 1) = true ∧
    runs 0xF01E (({ startFlag with i := 0xFFE }.setReg 0 1).setReg 15 1) (fun t => t.i == 0xFFF && t.reg 15 == 0) = true := by decide
/-- I-07, I-08 -/
theorem test_ldF : runs 0xF029 (start.setReg 0 0x0B) (fun t => t.i == 0x087) = true ∧
    runs 0xF029 (start.setReg 0 0x1A) (fun t => t.i == 0x082) = true := by decide
/-- I-09 -/
theorem test_ldB : runs 0xF733 ({ start with i := 0x300 }.setReg 7 0x9C)
    (fun t => t.byteAt 0x300 == 1 && t.byteAt 0x301 == 5 && t.byteAt 0x302 == 6 && t.i == 0x300) = true := by decide
/-- I-12, I-13 -/
theorem test_ldB_top : raises 0xF733 ({ start with i := 0xFFE }.setReg 7 0x7B) 4 0x1000
      (fun t => t.byteAt 0xFFE == 0 && t.byteAt 0xFFF == 0) = true ∧
    runs 0xF733 ({ startMask with i := 0xFFE }.setReg 7 0x7B)
      (fun t => t.byteAt 0xFFE == 1 && t.byteAt 0xFFF == 2 && t.byteAt 0 == 3 && t.pc == 0x202) = true := by decide
/-- I-14, I-16 -/
theorem test_ldMemVx : runs 0xF255 (withRegs { start with i := 0x400 } [1, 2, 3, 4])
      (fun t => t.byteAt 0x400 == 1 && t.byteAt 0x401 == 2 && t.byteAt 0x402 == 3 && t.byteAt 0x403 == 0 && t.i == 0x400) = true ∧
    runs 0xFF55 ({ start with i := 0x400 }.setReg 15 0xEE) (fun t => t.byteAt 0x40F == 0xEE) = true := by decide
/-- I-17 -/
theorem test_ldMemVx_top : raises 0xFF55 ({ start with i := 0xFF8 }.setReg 0 1) 4 0x1000 (fun t => t.byteAt 0xFF8 == 0) = true := by
  decide
/-- I-18, I-19 -/
theorem test_ldVxMem : runs 0xF265 (poke (poke (poke { start with i := 0x400 } 0x400 0x0A) 0x401 0x0B) 0x402 0x0C)
      (fun t => t.reg 0 == 0x0A && t.reg 1 == 0x0B && t.reg 2 == 0x0C && t.reg 3 == 0 && t.i == 0x400) = true ∧
    runs 0xFF65 (poke ({ start with i := 0x400 }.setReg 15 1) 0x40F 0x77) (fun t => t.reg 15 == 0x77) = true := by decide

/-! Display -/

/-- D-02 and D-03 -/
theorem test_drw : runs 0xD015 { start with i := 0x50 } (fun t => t.pixel 0 0 && t.pixel 3 0 && !t.pixel 4 0 && t.pixel 0 1 &&
      !t.pixel 1 1 && t.pixel 3 1 && t.pixel 2 4 && t.reg 15 == 0) = true ∧
    runs 0xD011 (poke (withRegs { start with i := 0x300 } [0x3F, 0x1F]) 0x300 0xFF) (fun t => t.pixel 63 31 && t.pixel 0 31 &&
      t.pixel 6 31 && !t.pixel 7 31 && !t.pixel 62 31 && t.reg 15 == 0) = true := by decide
/-- D-05, D-09 and D-10 -/
theorem test_drw_corners : runs 0xD001 (light (poke { start with i := 0x300 } 0x300 0xC0) 1 0)
      (fun t => t.pixel 0 0 && !t.pixel 1 0 && t.reg 15 == 1) = true ∧
    runs 0xDFF1 (poke ({ start with i := 0x300 }.setReg 15 0x0A) 0x300 0x80) (fun t => t.pixel 10 10 && t.reg 15 == 0) = true ∧
    raises 0xD013 (poke (poke { start with i := 0xFFE } 0xFFE 0xFF) 0xFFF 0xFF) 4 0x1000 (fun t => !t.pixel 0 0) = true := by decide

/-! Timers and keys -/

/-- T-01 -/
theorem test_ldVxDt : runs 0xF507 { start with dt := 30 } (fun t => t.reg 5 == 0x1E && t.dt == 30) = true := by decide
/-- T-02 -/
theorem test_ldDtVx : runs 0xF515 (start.setReg 5 0x1E) (fun t => t.dt == 30) = true := by decide
/-- T-03 -/
theorem test_ldStVx : runs 0xF218 (start.setReg 2 4) (fun t => t.st == 4 && t.soundOn) = true := by decide
/-- T-04, T-05, T-08 -/
theorem test_skp : runs 0xE19E ({ start with k := 0x0400 }.setReg 1 0x0A) (fun t => t.pc == 0x204) = true ∧
    runs 0xE19E (start.setReg 1 0x0A) (fun t => t.pc == 0x202) = true ∧
    raises 0xE19E (start.setReg 1 0x10) 5 0x10 (fun _ => true) = true := by decide
/-- T-06, T-07, T-09 -/
theorem test_sknp : runs 0xE1A1 ({ start with k := 0x0400 }.setReg 1 0x0A) (fun t => t.pc == 0x202) = true ∧
    runs 0xE1A1 (start.setReg 1 0x0A) (fun t => t.pc == 0x204) = true ∧
    raises 0xE1A1 (start.setReg 1 0xFF) 5 0xFF (fun _ => true) = true := by decide

/-- The state of T-12: pc = 0x210, F30A there, key 5 held. -/
def atWait : State := { start with pc := 0x210, k := 0x0020 }.placeWord 0xF30A

/-- T-12 -/
theorem test_ldVxK : (after atWait).status = .waiting ∧ (after atWait).kwait = true ∧ (after atWait).kwaitX = 3 ∧
    (after atWait).kprev = 0x0020 ∧ (after atWait).pc = 0x210 ∧ (after atWait).ir = 0xF30A := by decide

/-- A wait as E-08 leaves it before its last STEP: keys 9 and 2 pressed since the entry. -/
def inWait : State := { start with pc := 0x210, kwait := true, kwaitX := 3, ir := 0xF30A, k := 0x0204 }

/-- E-08 -/
theorem test_wait_lowest : (after inWait).reg 3 = 2 ∧ (after inWait).kprev = 0x0204 ∧ (after inWait).pc = 0x212 ∧
    (after inWait).status = .ok := by decide

/-! Fetch and errors -/

/-- E-04 and E-05 -/
theorem test_fetch_top : (after { start with pc := 0xFFF }).status = .error 4 0xFFF 0x1000 ∧
    (after { start with pc := 0x1000 }).status = .error 4 0x1000 0x1000 := by decide
/-- E-04m -/
theorem test_fetch_mask : runs 0x1200 { startMask with pc := 0xFFF } (fun t => t.pc == 0x200) = true ∧
    (poke (poke { startMask with pc := 0xFFF } 0xFFF 0x12) 0 0x00).fetchWord = .ok 0x1200 := by decide

/-- The state of E-01 after its first STEP. -/
def latched : State := after ({ start with dt := 5 }.placeWord 0x0123)

/-- E-01: the error stays, and TICK still runs. -/
theorem test_latched : latched.status = .error 1 0x200 0x0123 ∧ (after latched).status = .error 1 0x200 0x0123 ∧
    latched.tick.dt = 4 := by decide
/-- E-02: SKIP. -/
theorem test_skip : latched.clearError.pc = 0x202 ∧ latched.clearError.errCode = 0 ∧ latched.clearError.errInfo = 0 := by decide

/-! Host commands -/

/-- E-13 -/
theorem test_setKey : (start.putKey 10 true).k = 0x0400 ∧ ((start.putKey 10 true).putKey 10 false).k = 0 := by decide
/-- L1-10's ROM; R90. -/
theorem test_loadRom : (start.copyRom [0x60, 0x05, 0x70, 0x05]).fetchWord = .ok 0x6005 ∧
    (start.copyRom [0x60, 0x05, 0x70, 0x05]).byteAt 0x203 = 0x05 ∧ (start.copyRom [0x60, 0x05]).byteAt 0x202 = 0 := by decide
/-- E-15: the font after RESET. -/
theorem test_reset_font : (List.range 5).map (fun j => start.byteAt (0x050 + j)) = [0xF0, 0x90, 0x90, 0x90, 0xF0] ∧
    start.byteAt 0x04F = 0 ∧ start.byteAt 0x0A0 = 0 ∧ start.byteAt 0x200 = 0 := by decide
/-- R43: the linear view of FB, pixel (x, y) at bit y * 64 + x. -/
theorem test_frameBits : frameBits (light start 5 2).fb = 2 ^ (2 * 64 + 5) := by decide
/-- R236: FB_DIRTY after 00E0, Dxy0 and an instruction that draws nothing. -/
theorem test_fbDirty : fbDirty (start.placeWord 0x00E0) (after (start.placeWord 0x00E0)) = true ∧
    fbDirty (start.placeWord 0xD000) (after (start.placeWord 0xD000)) = true ∧
    fbDirty (start.placeWord 0x6000) (after (start.placeWord 0x6000)) = false := by decide

/-! Witnesses. test_hyps_X meets the hypotheses of Obligations.X, one part for each clause, at the ends of its range. -/

/-- A state that fetches w. -/
def fetching (w : Word) : State := start.placeWord w

theorem fetching_executes {w : Word} {i : Instr} (s : State) (h : s.errCode = 0) (h' : s.kwait = false)
    (hf : s.fetchWord = .ok w) (hd : decodeWord w = .ok i) : s.Executes i := ⟨⟨h, h'⟩, w, hf, hd⟩

theorem test_hyps_DecodeInvertsEncode : (Instr.sys 0x0E1).wf = true ∧ (Instr.drw 15 15 15).wf = true := by decide

theorem test_hyps_EncodeInvertsDecode : decodeWord 0xD12F = .ok (.drw 1 2 15) := by decide

theorem test_hyps_UnknownWordsRaise :
    ((fetching 0x5121).Running ∧ (fetching 0x5121).fetchWord = .ok 0x5121 ∧ UnknownWord 0x5121) ∧
    ((fetching 0x00EE).Running ∧ (fetching 0x00EE).fetchWord = .ok 0x00EE ∧ ¬ UnknownWord 0x00EE) := by
  refine ⟨⟨⟨rfl, rfl⟩, by decide, ?_⟩, ⟨rfl, rfl⟩, by decide, ?_⟩ <;> unfold UnknownWord <;> decide

theorem test_hyps_StepRunsDecodedInstruction : (fetching 0x00EE).Running ∧ (fetching 0x00EE).fetchWord = .ok 0x00EE ∧
    decodeWord 0x00EE = .ok .ret := ⟨⟨rfl, rfl⟩, by decide, by decide⟩

theorem test_hyps_LatchedErrorIsSticky : latched.errCode ≠ 0 := by decide

theorem test_hyps_WaitStepTakesLowestNewKey :
    (inWait.errCode = 0 ∧ inWait.kwait = true ∧ inWait.NewKey 2 ∧ ∀ j, j < 2 → ¬ inWait.NewKey j) ∧
    ((after atWait).errCode = 0 ∧ (after atWait).kwait = true ∧ ∀ j, ¬ (after atWait).NewKey j) := by
  unfold State.NewKey; decide

theorem test_hyps_EffectiveAddressIsChecked : 4095 < 4096 ∧ 4096 ≤ 4096 ∧ ea .fault 4095 = some 4095 ∧
    ea .fault 4096 = none ∧ ea .mask12 4096 = some 0 := by decide

theorem test_hyps_ObserveReturnsTheWholeState : 4095 < 4096 := by decide

theorem test_hyps_FetchIsBigEndianAndChecked :
    ({ start with pc := 0xFFE }.ea 0xFFE = some 0xFFE ∧ { start with pc := 0xFFE }.ea 0xFFF = some 0xFFF) ∧
    ({ start with pc := 0x1000 }.Running ∧ { start with pc := 0x1000 }.ea 0x1000 = none) ∧
    ({ start with pc := 0xFFF }.Running ∧ ({ start with pc := 0xFFF }.ea 0xFFF).isSome = true ∧
      { start with pc := 0xFFF }.ea 0x1000 = none) ∧
    { startMask with pc := 0xFFF }.cfg.addrMode = .mask12 :=
  ⟨by decide, ⟨⟨rfl, rfl⟩, by decide⟩, ⟨⟨rfl, rfl⟩, by decide, by decide⟩, rfl⟩

theorem test_hyps_ErrorsArePrecise : (fetching 0x0123).errCode = 0 ∧ step (fetching 0x0123) = .next (after (fetching 0x0123)) ∧
    (after (fetching 0x0123)).errCode ≠ 0 := ⟨rfl, rfl, by decide⟩

theorem test_hyps_StepKeepsTheInvariant : inWait.Inv ∧ step inWait = .next (after inWait) :=
  ⟨⟨by decide, .inl (by decide), fun _ => by decide⟩, rfl⟩

/-- A latched error in a state with the invariant, and the command that clears it. -/
theorem test_hyps_EveryCommandKeepsTheInvariant :
    latched.Inv ∧ command .skip latched = .next (latched.clearError, .ok) := by
  refine ⟨⟨by decide, .inr ?_, by decide⟩, rfl⟩
  decide

theorem test_hyps_ResetHasTheInvariant : defaultConfig.addrMode = .fault := rfl

theorem test_hyps_StepKeepsPcBounded :
    { start with pc := 0x10FE }.PcBounded ∧ step { start with pc := 0x10FE } = .next (after { start with pc := 0x10FE }) := by
  refine ⟨?_, rfl⟩
  unfold State.PcBounded; decide

theorem test_hyps_CanonicalMemoryIsUnique : Memory.wf defaultConfig [(0x300, 5)] = true ∧
    Memory.wf defaultConfig (Memory.write defaultConfig (Memory.write defaultConfig [] 0x300 7) 0x300 5) = true := by decide

/-- F733 at I = 0xFFD: the last place it fits. -/
def bcdTop : State := ({ start with i := 0xFFD }.setReg 7 0x7B).placeWord 0xF733

theorem test_hyps_OnlyFx33AndFx55WriteMemory : step bcdTop = .next (after bcdTop) ∧
    (after bcdTop).byteAt 0xFFF ≠ bcdTop.byteAt 0xFFF := ⟨rfl, by decide⟩

/-- 00E0 with the pixel (63, 31) lit. -/
def clsLit : State := light (fetching 0x00E0) 63 31

theorem test_hyps_OnlyClsAndDrwWriteTheFramebuffer : step clsLit = .next (after clsLit) ∧ (after clsLit).fb ≠ clsLit.fb :=
  ⟨rfl, by decide⟩

theorem test_hyps_OnlyCallAndRetTouchTheStack : step (fetching 0x2300) = .next (after (fetching 0x2300)) ∧
    (after (fetching 0x2300)).stack ≠ (fetching 0x2300).stack ∧ (after (fetching 0x2300)).sp ≠ (fetching 0x2300).sp :=
  ⟨rfl, by decide, by decide⟩

/-- Fx15 and Fx18 with V5 = 30. -/
def timing (w : Word) : State := (start.setReg 5 30).placeWord w

theorem test_hyps_StepNeverTicksOrTouchesTheKeypad : step (timing 0xF515) = .next (after (timing 0xF515)) ∧
    (after (timing 0xF515)).dt ≠ (timing 0xF515).dt ∧ step (timing 0xF518) = .next (after (timing 0xF518)) ∧
    (after (timing 0xF518)).st ≠ (timing 0xF518).st := ⟨rfl, by decide, rfl, by decide⟩

theorem test_hyps_OnlyNamedInstructionsWriteIndexAndRng : step (fetching 0xA2F0) = .next (after (fetching 0xA2F0)) ∧
    (after (fetching 0xA2F0)).i ≠ (fetching 0xA2F0).i ∧ ∀ x kk, ¬ (fetching 0xA2F0).Executes (.rnd x kk) := by
  refine ⟨rfl, by decide, ?_⟩
  rintro x kk ⟨_, w, hw, hd⟩
  have h : (fetching 0xA2F0).fetchWord = .ok 0xA2F0 := by decide
  rw [h] at hw
  cases hw
  exact absurd hd (by rw [show decodeWord 0xA2F0 = .ok (.ldI 0x2F0) from by decide]; intro h; cases h)

theorem test_hyps_OnlyNamedInstructionsWriteVf :
    (step { inWait with kwaitX := 15 } = .next (after { inWait with kwaitX := 15 }) ∧
      (after { inWait with kwaitX := 15 }).reg 15 ≠ inWait.reg 15) ∧
    (step (fetching 0x6F01) = .next (after (fetching 0x6F01)) ∧
      (after (fetching 0x6F01)).reg 15 ≠ (fetching 0x6F01).reg 15) := ⟨⟨rfl, by decide⟩, rfl, by decide⟩

theorem test_hyps_SoundTimerAndIrAreNeverRead : step (fetching 0x6F01) = .next (after (fetching 0x6F01)) := rfl

/-- Every pattern of the statements is met by a word. -/
theorem test_hyps_patterns : (0x1234#16 &&& 0xF000 = 0x1000 ∧ 0x2345#16 &&& 0xF000 = 0x2000 ∧ 0x3342#16 &&& 0xF000 = 0x3000 ∧
      0x4A42#16 &&& 0xF000 = 0x4000 ∧ 0x5120#16 &&& 0xF00F = 0x5000 ∧ 0x6A5C#16 &&& 0xF000 = 0x6000 ∧
      0x7F05#16 &&& 0xF000 = 0x7000 ∧ 0x9EF0#16 &&& 0xF00F = 0x9000 ∧ 0xA2F0#16 &&& 0xF000 = 0xA000 ∧
      0xB321#16 &&& 0xF000 = 0xB000 ∧ 0xC30F#16 &&& 0xF000 = 0xC000 ∧ 0xD12F#16 &&& 0xF000 = 0xD000) ∧
    (0x8120#16 &&& 0xF00F = 0x8000 ∧ 0x8121#16 &&& 0xF00F = 0x8001 ∧ 0x8122#16 &&& 0xF00F = 0x8002 ∧
      0x8123#16 &&& 0xF00F = 0x8003 ∧ 0x8124#16 &&& 0xF00F = 0x8004 ∧ 0x8F15#16 &&& 0xF00F = 0x8005 ∧
      0x8256#16 &&& 0xF00F = 0x8006 ∧ 0x8017#16 &&& 0xF00F = 0x8007 ∧ 0x825E#16 &&& 0xF00F = 0x800E) ∧
    (0x00E0#16 &&& 0xFFFF = 0x00E0 ∧ 0x00EE#16 &&& 0xFFFF = 0x00EE ∧ 0xE19E#16 &&& 0xF0FF = 0xE09E ∧
      0xE1A1#16 &&& 0xF0FF = 0xE0A1 ∧ 0xF507#16 &&& 0xF0FF = 0xF007 ∧ 0xF30A#16 &&& 0xF0FF = 0xF00A ∧
      0xF515#16 &&& 0xF0FF = 0xF015 ∧ 0xF218#16 &&& 0xF0FF = 0xF018 ∧ 0xF41E#16 &&& 0xF0FF = 0xF01E ∧
      0xF029#16 &&& 0xF0FF = 0xF029 ∧ 0xF733#16 &&& 0xF0FF = 0xF033 ∧ 0xF255#16 &&& 0xF0FF = 0xF055 ∧
      0xF265#16 &&& 0xF0FF = 0xF065) := by decide

/-- One sprite byte 0x80 at I = 0xFFF, drawn at (0, 0): its pixel is (0, 0). -/
def dotTop : State := poke { start with i := 0xFFF } 0xFFF 0x80

theorem dotTop_sets : SpriteSets dotTop 0 0 1 0 0 := ⟨0, 0, 0xFFF, by decide, by decide, by decide, by decide, by decide, by decide⟩

theorem test_hyps_DrawTogglesExactlyTheSpritePixels :
    (InRangeAtI dotTop 1 ∧ SpriteSets dotTop 0 0 1 0 0 ∧ ¬ SpriteSets dotTop 0 0 0 0 0) ∧
    (SpriteSets dotTop 0 0 1 0 0 ∧ (light dotTop 0 0).pixel 0 0 = true) ∧
    FirstBadAtI dotTop 2 1 := by
  unfold FirstBadAtI InRangeAtI
  refine ⟨⟨by decide, dotTop_sets, ?_⟩, ⟨dotTop_sets, by decide⟩, by decide⟩
  rintro ⟨r, c, a, h, _⟩
  exact absurd h (by simp)

theorem test_hyps_DrawingTwiceRestoresTheScreen : (0 : Reg) ≠ 15 ∧ InRangeAtI dotTop 1 ∧ SpriteSets dotTop 0 0 1 0 0 ∧
    dotTop.pixel 0 0 = false ∧ ∀ px py, ¬ SpriteSets dotTop 0 0 0 px py := by
  unfold InRangeAtI
  refine ⟨by decide, by decide, dotTop_sets, by decide, ?_⟩
  rintro px py ⟨r, c, a, h, _⟩
  exact absurd h (by simp)

/-- The statement is expected to fail at this state: the sprite's one pixel is lit before the first draw. -/
theorem test_hyps_SecondDrawCollidesOnEveryScreen : (0 : Reg) ≠ 15 ∧ InRangeAtI (light dotTop 0 0) 1 ∧
    SpriteSets (light dotTop 0 0) 0 0 1 0 0 ∧ (light dotTop 0 0).pixel 0 0 = true := by
  unfold InRangeAtI
  exact ⟨by decide, by decide, dotTop_sets, by decide⟩

theorem test_hyps_ReturnPopsThePc : start.sp = 0 ∧ ({ start with sp := 1 } : State).sp.val = (0 : Fin 16).val + 1 ∧
    ({ start with sp := 16 } : State).sp.val = (15 : Fin 16).val + 1 := by decide

theorem test_hyps_CallPushesTheNextAddress : ({ start with sp := 16 } : State).sp = 16 ∧ start.sp.val = (0 : Fin 16).val ∧
    ({ start with sp := 15 } : State).sp.val = (15 : Fin 16).val := by decide

theorem test_hyps_ReturnResumesAfterItsCall : start.sp ≠ 16 ∧ ({ start with sp := 15 } : State).sp ≠ 16 := by decide

theorem test_hyps_SysRaisesUnknownOpcode : 0x0000#16 &&& 0xF000 = 0x0000 ∧ 0x0FFF#16 &&& 0xF000 = 0x0000 ∧
    0x00E1#16 ≠ 0x00E0 ∧ 0x00E1#16 ≠ 0x00EE := by decide

theorem test_hyps_KeySkipsTestTheKeypad : ((start.setReg 1 15).reg 1).toNat = (15 : Fin 16).val ∧
    (start.reg 1).toNat = (0 : Fin 16).val ∧ 15 < ((start.setReg 1 16).reg 1).toNat := by decide

/-- For AddWritesSumThenCarry, SubtractionsWriteDifferenceThenFlag and ShiftsMoveByOneBit. -/
theorem test_hyps_flagWriters : (14 : Reg) ≠ 15 ∧ (0 : Reg) ≠ 15 := by decide

theorem test_hyps_RegisterSkipsMovePcByFourOrTwo : 0x5121#16 &&& 0xF000 = 0x5000 ∧ 0x5121#16 &&& 0x000F ≠ 0 ∧
    0x912F#16 &&& 0xF000 = 0x9000 ∧ 0x912F#16 &&& 0x000F ≠ 0 := by decide

theorem test_hyps_AddToIndexWraps : start.cfg.fx1eVf = false ∧ startFlag.cfg.fx1eVf = true := by decide

theorem test_hyps_BcdStoresThreeDigits : InRangeAtI bcdTop 3 ∧ bcdTop.ea 0xFFF = some 0xFFF ∧
    FirstBadAtI { start with i := 0xFFE } 3 2 ∧ FirstBadAtI { start with i := 0x1000 } 3 0 ∧
    InRangeAtI { startMask with i := 0xFFE } 3 := by
  unfold FirstBadAtI InRangeAtI; decide

theorem test_hyps_RegisterDumpStoresRegisters : InRangeAtI { start with i := 0xFF0 } 16 ∧ InRangeAtI { start with i := 0xFFF } 1 ∧
    FirstBadAtI { start with i := 0xFF1 } 16 15 ∧ FirstBadAtI { start with i := 0x1000 } 1 0 := by
  unfold FirstBadAtI InRangeAtI; decide

/-- The loads have the hypotheses of the stores; y <= x and x < y at x = 14. -/
theorem test_hyps_RegisterLoadReadsMemory : InRangeAtI { start with i := 0xFF1 } 15 ∧ (14 : Reg) ≤ 14 ∧ (14 : Reg) < 15 ∧
    FirstBadAtI { start with i := 0xFF2 } 15 14 := by
  unfold FirstBadAtI InRangeAtI; decide

theorem test_hyps_DumpThenLoadRestoresRegisters : InRangeAtI { start with i := 0xFF0 } ((15 : Reg).val + 1) := by
  unfold InRangeAtI; decide

/-- I-20: F155 with I on the next instruction. -/
def selfModifying : State := (withRegs { start with i := 0x202 } [0x12, 0x00]).placeWord 0xF155

theorem test_hyps_StoredBytesAreFetchedNext : selfModifying.Executes (.ldMemVx 1) ∧ 1 ≤ (1 : Reg).val ∧
    selfModifying.i = selfModifying.pc + 2 ∧ InRangeAtI selfModifying 2 := by
  unfold InRangeAtI
  exact ⟨fetching_executes (w := 0xF155) _ rfl rfl (by decide) (by decide), by decide, by decide, by decide⟩

theorem test_hyps_KeyWaitEntryArmsTheWait : atWait.Executes (.ldVxK 3) :=
  fetching_executes (w := 0xF30A) _ rfl rfl (by decide) (by decide)

theorem test_hyps_SetKeyWritesOneKey : (15 : Fin 16).val = 15 ∧ 15 < 16 := by decide

theorem test_hyps_LoadRomCopiesOrRefuses : 0x200 + (List.replicate 3584 (0x11 : Byte)).length ≤ 4096 ∧
    4096 < 0x200 + (List.replicate 3585 (0x11 : Byte)).length := by
  rw [List.length_replicate, List.length_replicate]; omega

theorem test_hyps_SkipClearsTheError : start.errCode = 0 ∧ latched.errCode ≠ 0 := by decide

theorem test_hyps_ResetLeavesTheListedValues : 0x04F < start.cfg.fontBase.toNat ∧ start.cfg.fontBase.toNat + 80 ≤ 0x0A0 := by decide

theorem test_hyps_FbDirtyMarksCommittedDraws :
    command .step clsLit = .next (after clsLit, .stepped (after clsLit).status (fbDirty clsLit (after clsLit))) ∧
    fbDirty clsLit (after clsLit) = true ∧ (after clsLit).errCode = 0 ∧ clsLit.Executes .cls :=
  ⟨rfl, by decide, by decide, fetching_executes (w := 0x00E0) _ rfl rfl (by decide) (by decide)⟩

theorem test_hyps_StepStatusTellsWhatHappened :
    command .step atWait = .next (after atWait, .stepped .waiting false) ∧
    command .step inWait = .next (after inWait, .stepped .ok false) ∧
    command .step latched = .next (latched, .stepped (.error 1 0x200 0x123) false) := ⟨rfl, rfl, rfl⟩

end Sys2Proof.Tests
end

section
/-! Proofs of the family 20_memory.md: LOAD_ROM (R90, R286) and the fetch (R72, R74, R76). -/

namespace Sys2Proof.Proofs

open Machine Laws

/-! LOAD_ROM -/

/-- The addresses of a span are distinct, so no byte of a ROM overwrites another. -/
theorem span_nodup (base n : Nat) : (span base n).Nodup := by
  induction n generalizing base with
  | zero => exact List.nodup_nil
  | succ n ih =>
    have hbase : base ∉ span (base + 1) n := by rw [mem_span]; omega
    exact List.nodup_cons.mpr ⟨hbase, ih (base + 1)⟩

/-- R90: byte j of the ROM is read back at 0x200 + j. -/
theorem copyRom_byteAt_rom (s : State) (rom : List Byte) {j : Nat} (hj : j < rom.length) :
    (s.copyRom rom).byteAt (0x200 + j) = rom[j] := by
  have hspan : j < (span 0x200 rom.length).length := by rwa [span_length]
  have hget := read_writeAll_get s.cfg _ rom s.mem j hspan hj (span_nodup 0x200 rom.length)
  rwa [span_get] at hget

/-- R90: the ROM leaves every byte outside its own range as it was. -/
theorem copyRom_byteAt_outside (s : State) (rom : List Byte) {a : Nat}
    (ha : a < 0x200 ∨ 0x200 + rom.length ≤ a) : (s.copyRom rom).byteAt a = s.byteAt a := by
  have hnot : a ∉ span 0x200 rom.length := by rw [mem_span]; omega
  exact read_writeAll_of_notMem s.cfg a _ rom s.mem hnot

/-- R90: a ROM that ends at or below the top of memory is copied. -/
theorem command_loadRom_of_fits (s : State) {rom : List Byte} (h : 0x200 + rom.length ≤ 4096) :
    command (.loadRom rom) s = .next (s.copyRom rom, .ok) :=
  if_neg (Nat.not_lt.mpr h)

/-- R286: a longer one is refused with its length, and the state is kept. -/
theorem command_loadRom_of_overflow (s : State) {rom : List Byte} (h : 4096 < 0x200 + rom.length) :
    command (.loadRom rom) s = .next (s, .romOverflow rom.length) :=
  if_pos h

/-- Settles O55: the ROM is written to the distinct addresses from 0x200 on, so each byte is read back and no other byte
changes. -/
theorem loadRomCopiesOrRefuses : Obligations.LoadRomCopiesOrRefuses := by
  intro s rom
  refine ⟨fun hfits => ⟨s.copyRom rom, command_loadRom_of_fits s hfits, ?_, ?_, rfl⟩, command_loadRom_of_overflow s⟩
  · exact fun _ => copyRom_byteAt_rom s rom
  · exact fun _ => copyRom_byteAt_outside s rom

/-! The fetch -/

/-- R72: in mask12 every address has an EA, its low 12 bits. -/
theorem ea_mask12 (a : Nat) : ea .mask12 a = some (a % 4096) := by
  unfold ea
  split
  · rw [Nat.mod_eq_of_lt ‹_›]
  · rfl

/-- R76: EA(pc) is checked first. -/
theorem fetchWord_of_pc_bad {s : State} (h : s.ea s.pc.toNat = none) : s.fetchWord = .error s.pc.toNat := by
  simp [State.fetchWord, h]

/-- R76: EA(pc + 1) is checked second, pc + 1 being unbounded. -/
theorem fetchWord_of_pc_succ_bad {s : State} (h1 : (s.ea s.pc.toNat).isSome = true)
    (h2 : s.ea (s.pc.toNat + 1) = none) : s.fetchWord = .error (s.pc.toNat + 1) := by
  obtain ⟨hi, hhi⟩ := Option.isSome_iff_exists.mp h1
  simp [State.fetchWord, hhi, h2]

/-- R284: the step of a running state whose fetch fails raises AddressOutOfRange of the address that failed. -/
theorem step_of_fetch_error {s : State} {a : Nat} (hr : s.Running) (hf : s.fetchWord = .error a) :
    step s = .next (Raised s 4 (BitVec.ofNat 32 a)) := by
  obtain ⟨herr, hwait⟩ := hr
  have hraise : step s = .next (s.raiseAddress a) := by simp [step, stepCycle, herr, hwait, hf]
  exact hraise

/-- Settles O9: by the two checks of the fetch in their order, the big-endian word, and EA in mask12. -/
theorem fetchIsBigEndianAndChecked : Obligations.FetchIsBigEndianAndChecked := by
  intro s
  refine ⟨fun hi lo hhi hlo => ?word, fun hr hpc => ?pcBad, fun hr hpc hnext => ?nextBad, fun hmode hpc => ?wrap⟩
  case word => exact ⟨_, fetchWord_of hhi hlo, wordOfBytes_toNat _ _⟩
  case pcBad => exact step_of_fetch_error hr (fetchWord_of_pc_bad hpc)
  case nextBad => exact step_of_fetch_error hr (fetchWord_of_pc_succ_bad hpc hnext)
  case wrap =>
    have hea (a : Nat) : s.ea a = some (a % 4096) := by rw [State.ea, hmode, ea_mask12]
    have hhi : s.ea s.pc.toNat = some 0xFFF := by rw [hpc, hea]; rfl
    have hlo : s.ea (s.pc.toNat + 1) = some 0x000 := by rw [hpc, hea]; rfl
    exact fetchWord_of hhi hlo

end Sys2Proof.Proofs
end

section
/-! Proofs of the family 30_encoding.md: the words that select no instruction (R108) and the step on them (R111). -/

namespace Sys2Proof.Proofs

open Machine Laws

/-! The fields of a word as numbers (R101) -/

theorem familyOf_toNat (w : Word) : (familyOf w).toNat = w.toNat / 0x1000 := by
  have hw := w.isLt
  rw [familyOf, BitVec.extractLsb'_toNat, Nat.shiftRight_eq_div_pow]
  omega

theorem selectorOf_toNat (w : Word) : (selectorOf w).toNat = w.toNat % 16 := BitVec.extractLsb'_toNat 0 4 w

theorem kkOf_toNat (w : Word) : (kkOf w).toNat = w.toNat % 256 := BitVec.extractLsb'_toNat 0 8 w

theorem nnnOf_toNat (w : Word) : (nnnOf w).toNat = w.toNat % 4096 := BitVec.extractLsb'_toNat 0 12 w

/-- R134: the SYS operand of a word of family 0 is the whole word. -/
theorem nnnOf_setWidth_of_family0 {w : Word} (h : familyOf w = 0x0#4) : (nnnOf w).setWidth 32 = w.setWidth 32 := by
  have hfam : w.toNat / 0x1000 = 0 := by rw [← familyOf_toNat, h]; rfl
  apply BitVec.eq_of_toNat_eq
  rw [BitVec.toNat_setWidth, BitVec.toNat_setWidth, nnnOf_toNat]
  omega

/-! What the decoder answers on a word -/

/-- The answer r of a part of the decoder on w is UnknownOpcode(w) where `unknown` holds, and an instruction other than
SYS where it does not (R108, R110). -/
def RefusesExactly (w : Word) (unknown : Prop) (r : Except DecodeError Instr) : Prop :=
  (unknown ∧ r = .error (.unknownOpcode w)) ∨ (¬ unknown ∧ ∃ i, r = .ok i ∧ ∀ nnn, i ≠ .sys nnn)

theorem RefusesExactly.refused {w : Word} {unknown : Prop} (h : unknown) :
    RefusesExactly w unknown (.error (.unknownOpcode w)) := .inl ⟨h, rfl⟩

theorem RefusesExactly.selected {w : Word} {unknown : Prop} {i : Instr} (h : ¬ unknown) (hi : ∀ nnn, i ≠ .sys nnn) :
    RefusesExactly w unknown (.ok i) := .inr ⟨h, i, rfl, hi⟩

/-- Families 5 and 9 (R103). -/
theorem decodeNeedsZero_refuses (w : Word) {i : Instr} (hi : ∀ nnn, i ≠ .sys nnn) :
    RefusesExactly w ((selectorOf w).toNat ≠ 0) (decodeNeedsZero w i) := by
  unfold decodeNeedsZero
  split
  next h => exact .selected (by simp [h]) hi
  next h => exact .refused (fun h0 => h (BitVec.eq_of_toNat_eq h0))

/-- Family 8 (R105). -/
theorem decodeFamily8_refuses (w : Word) :
    RefusesExactly w ((selectorOf w).toNat ∈ [0x8, 0x9, 0xA, 0xB, 0xC, 0xD, 0xF]) (decodeFamily8 w) := by
  unfold decodeFamily8
  split
  case h_10 =>
    -- the values that match no arm
    refine .refused ?_
    generalize selectorOf w = n at *
    revert n
    decide
  all_goals next h => exact .selected (by rw [h]; decide) nofun

/-- Family E (R106). -/
theorem decodeFamilyE_refuses (w : Word) :
    RefusesExactly w ((kkOf w).toNat ∉ [0x9E, 0xA1]) (decodeFamilyE w) := by
  unfold decodeFamilyE
  split
  case h_3 =>
    -- the values that match no arm
    refine .refused ?_
    generalize kkOf w = n at *
    revert n
    decide
  all_goals next h => exact .selected (by rw [h]; decide) nofun

/-- Family F (R107). -/
theorem decodeFamilyF_refuses (w : Word) :
    RefusesExactly w ((kkOf w).toNat ∉ [0x07, 0x0A, 0x15, 0x18, 0x1E, 0x29, 0x33, 0x55, 0x65]) (decodeFamilyF w) := by
  unfold decodeFamilyF
  split
  case h_10 =>
    -- the values that match no arm
    refine .refused ?_
    generalize kkOf w = n at *
    revert n
    decide
  all_goals next h => exact .selected (by rw [h]; decide) nofun

/-- Family 0 (R104, R110): a word other than 00E0 and 00EE is the SYS row. -/
theorem decodeFamily0_of_sys {w : Word} (hcls : w.toNat ≠ 0x00E0) (hret : w.toNat ≠ 0x00EE) :
    decodeFamily0 w = .sys (nnnOf w) := by
  have hcls' : w ≠ 0x00E0#16 := fun h => hcls (by rw [h]; rfl)
  have hret' : w ≠ 0x00EE#16 := fun h => hret (by rw [h]; rfl)
  rw [decodeFamily0, if_neg hcls', if_neg hret']

theorem decodeFamily0_ne_sys {w : Word} (h : w.toNat = 0x00E0 ∨ w.toNat = 0x00EE) (nnn : Addr) :
    decodeFamily0 w ≠ .sys nnn := by
  have hw : w = 0x00E0#16 ∨ w = 0x00EE#16 := h.imp BitVec.eq_of_toNat_eq BitVec.eq_of_toNat_eq
  rcases hw with rfl | rfl <;> exact nofun

/-- A family other than 0 is refused exactly on the words of R108's list. -/
theorem decodeWord_refuses {w : Word} (h0 : familyOf w ≠ 0x0#4) : RefusesExactly w (UnknownWord w) (decodeWord w) := by
  simp only [UnknownWord, ← familyOf_toNat, ← selectorOf_toNat, ← kkOf_toNat]
  unfold decodeWord
  split
  case h_1 h => exact absurd h h0
  case h_6 h => simpa [h] using decodeNeedsZero_refuses w (i := .seReg (xOf w) (yOf w)) nofun
  case h_9 h => simpa [h] using decodeFamily8_refuses w
  case h_10 h => simpa [h] using decodeNeedsZero_refuses w (i := .sneReg (xOf w) (yOf w)) nofun
  case h_15 h => simpa [h] using decodeFamilyE_refuses w
  case h_16 =>
    have h : familyOf w = 0xF#4 := by
      generalize familyOf w = f at *
      revert f
      decide
    simpa [h] using decodeFamilyF_refuses w
  all_goals next h => exact .selected (by simp [h]) nofun

/-- Every word: UnknownOpcode(w) or SYS where R108's list has it, another instruction where not. -/
theorem decodeWord_cases (w : Word) :
    (UnknownWord w ∧ decodeWord w = .error (.unknownOpcode w)) ∨
    (UnknownWord w ∧ familyOf w = 0x0#4 ∧ decodeWord w = .ok (.sys (nnnOf w))) ∨
    (¬ UnknownWord w ∧ ∃ i, decodeWord w = .ok i ∧ ∀ nnn, i ≠ .sys nnn) := by
  by_cases h0 : familyOf w = 0x0#4
  · have hdec : decodeWord w = .ok (decodeFamily0 w) := by simp only [decodeWord, h0]
    have hunk : UnknownWord w ↔ w.toNat ≠ 0x00E0 ∧ w.toNat ≠ 0x00EE := by
      simp [UnknownWord, ← familyOf_toNat, h0]
    by_cases hw : w.toNat ≠ 0x00E0 ∧ w.toNat ≠ 0x00EE
    · exact .inr (.inl ⟨hunk.mpr hw, h0, by rw [hdec, decodeFamily0_of_sys hw.1 hw.2]⟩)
    · have hw' : w.toNat = 0x00E0 ∨ w.toNat = 0x00EE := by omega
      exact .inr (.inr ⟨mt hunk.mp hw, _, hdec, decodeFamily0_ne_sys hw'⟩)
  · rcases decodeWord_refuses h0 with h | h
    · exact .inl h
    · exact .inr (.inr h)

/-! What the step does on a word -/

/-- The step of a running state on a word that decodes to no instruction. -/
theorem step_of_undecoded {s : State} {w : Word} {e : DecodeError} (hr : s.Running) (hf : s.fetchWord = .ok w)
    (hd : decodeWord w = .error e) : step s = .next (Raised s 1 (w.setWidth 32)) := by
  obtain ⟨herr, hwait⟩ := hr
  have hraise : step s = .next (s.raise .unknownOpcode (w.setWidth 32)) := by
    simp [step, stepCycle, herr, hwait, hf, executeWord, hd]
  exact hraise

/-- R288: IR is not written around an instruction that raised. -/
theorem commitIr_raise (w : Word) (s : State) (kind : ErrorKind) (info : BitVec 32) :
    commitIr w (.next (s.raise kind info)) = .next (s.raise kind info) :=
  congrArg Host.Outcome.next (if_neg (errorCodeOf_ne_zero kind))

/-- R134: the step of a running state on a SYS word. -/
theorem step_of_sys {s : State} {w : Word} {nnn : Addr} (hr : s.Running) (hf : s.fetchWord = .ok w)
    (hd : decodeWord w = .ok (.sys nnn)) : step s = .next (Raised s 1 (nnn.setWidth 32)) :=
  (step_of_decoded hr hf hd).trans (commitIr_raise w s .unknownOpcode (nnn.setWidth 32))

/-- The IR write keeps the error code. -/
theorem commitIr_next_errCode (w : Word) (t : State) : ∃ u, commitIr w (.next t) = .next u ∧ u.errCode = t.errCode := by
  refine ⟨_, rfl, ?_⟩
  split <;> rfl

/-- A store instruction keeps the error code or latches AddressOutOfRange. -/
theorem storeAndAdvance_errCode_ne_unknown {s : State} (bs : List Byte) (hs : s.errCode ≠ 1) :
    (s.storeAndAdvance bs).errCode ≠ 1 := by
  rcases storeAndAdvance_cases s bs with ⟨m, _, h⟩ | ⟨a, _, h⟩ <;> rw [h]
  · exact hs
  · simp

/-- R108: no instruction but SYS raises UnknownOpcode. -/
theorem exec_errCode_ne_unknown {i : Instr} {s : State} (hi : ∀ nnn, i ≠ .sys nnn) (hs : s.errCode ≠ 1) :
    ∃ t, exec i s = .next t ∧ t.errCode ≠ 1 := by
  cases i with
  | sys nnn => exact absurd rfl (hi nnn)
  | ret =>
    simp only [exec, execRet]
    rcases pop_cases s with ⟨h, _⟩ | ⟨_, h⟩ <;> rw [h]
    · exact ⟨_, rfl, by simp [errorCodeOf]⟩
    · exact ⟨_, rfl, hs⟩
  | call nnn =>
    simp only [exec, execCall]
    rcases push_cases s s.next with ⟨h, _⟩ | ⟨_, h⟩ <;> rw [h]
    · exact ⟨_, rfl, by simp [errorCodeOf]⟩
    · exact ⟨_, rfl, hs⟩
  | drw x y n =>
    simp only [exec, execDrw]
    cases s.loadAtI n.val with
    | ok bs => exact ⟨_, rfl, hs⟩
    | error a => exact ⟨_, rfl, by simp⟩
  | skp x =>
    simp only [exec, execSkp]
    cases s.keyIndex x with
    | some key => exact ⟨_, rfl, hs⟩
    | none => exact ⟨_, rfl, by simp⟩
  | sknp x =>
    simp only [exec, execSknp]
    cases s.keyIndex x with
    | some key => exact ⟨_, rfl, hs⟩
    | none => exact ⟨_, rfl, by simp⟩
  | addI x =>
    simp only [exec, execAddI]
    split <;> exact ⟨_, rfl, hs⟩
  | ldB x => exact ⟨_, rfl, storeAndAdvance_errCode_ne_unknown _ hs⟩
  | ldMemVx x => exact ⟨_, rfl, storeAndAdvance_errCode_ne_unknown _ hs⟩
  | ldVxMem x =>
    simp only [exec, execLdVxMem]
    cases s.loadAtI (x.val + 1) with
    | ok bs => exact ⟨_, rfl, hs⟩
    | error a => exact ⟨_, rfl, by simp⟩
  | _ => exact ⟨_, rfl, hs⟩

/-- The step of a running state on an instruction other than SYS latches no UnknownOpcode. -/
theorem step_of_decoded_ne_sys {s : State} {w : Word} {i : Instr} (hr : s.Running) (hf : s.fetchWord = .ok w)
    (hd : decodeWord w = .ok i) (hi : ∀ nnn, i ≠ .sys nnn) : ∃ t, step s = .next t ∧ t.errCode ≠ 1 := by
  have hs : s.errCode ≠ 1 := by rw [hr.1]; decide
  obtain ⟨t, hexec, ht⟩ := exec_errCode_ne_unknown hi hs
  obtain ⟨u, hcommit, hu⟩ := commitIr_next_errCode w t
  exact ⟨u, by rw [step_of_decoded hr hf hd, hexec, hcommit], hu ▸ ht⟩

/-- Settles O4: the decoder answers UnknownOpcode or SYS exactly on R108's list, and no instruction but SYS raises it. -/
theorem unknownWordsRaise : Obligations.UnknownWordsRaise := by
  intro s w hr hf
  rcases decodeWord_cases w with ⟨hunk, hd⟩ | ⟨hunk, h0, hd⟩ | ⟨hunk, i, hd, hi⟩
  · exact ⟨fun _ => step_of_undecoded hr hf hd, fun hn => absurd hunk hn⟩
  · exact ⟨fun _ => nnnOf_setWidth_of_family0 h0 ▸ step_of_sys hr hf hd, fun hn => absurd hunk hn⟩
  · exact ⟨fun h => absurd h hunk, fun _ => step_of_decoded_ne_sys hr hf hd hi⟩

end Sys2Proof.Proofs
end

section
/-! Proofs of the family 40_flow.md: RET (R130), the jumps (R131, R133), CALL (R132) and SYS (R134). -/

namespace Sys2Proof.Proofs

open Machine Laws

/-! Words that match a pattern -/

/-- A pattern of mask F000 fixes the family alone (R103). -/
theorem hasPattern_of_family {p : Word} {f : Word → Instr} (k : BitVec 4) (hp : familyOf p = k)
    (h : ∀ w, familyOf w = k → decodeWord w = .ok (f w)) : HasPattern 0xF000 p f :=
  fun w hw => h w ((familyOf_of_match hw (by decide)).trans hp)

/-- A pattern of mask FFFF is one word. -/
theorem hasPattern_of_word {p : Word} {i : Instr} (h : decodeWord p = .ok i) : HasPattern 0xFFFF p (fun _ => i) := by
  intro w hw
  have hwp : w = p := (BitVec.and_allOnes (w := 16)).symm.trans hw
  rw [hwp, h]

theorem decodeWord_of_family0 {w : Word} (h : familyOf w = 0x0#4) : decodeWord w = .ok (decodeFamily0 w) := by
  simp only [decodeWord, h]

theorem decodeWord_of_family1 {w : Word} (h : familyOf w = 0x1#4) : decodeWord w = .ok (.jp (nnnOf w)) := by
  simp only [decodeWord, h]

theorem decodeWord_of_family2 {w : Word} (h : familyOf w = 0x2#4) : decodeWord w = .ok (.call (nnnOf w)) := by
  simp only [decodeWord, h]

theorem decodeWord_of_familyB {w : Word} (h : familyOf w = 0xB#4) : decodeWord w = .ok (.jpV0 (nnnOf w)) := by
  simp only [decodeWord, h]

/-! Jump targets and the frame of a jump -/

theorem zext16_toNat (nnn : Addr) : (zext16 nnn).toNat = nnn.toNat :=
  BitVec.toNat_setWidth_of_le (by decide)

/-- R133: V0 + nnn is at most 0x10FE, so the 16-bit target is the exact sum. -/
theorem jumpOffset_toNat (s : State) (nnn : Addr) : (s.jumpOffset nnn).toNat = (s.reg 0).toNat + nnn.toNat := by
  have hv0 := (s.reg 0).isLt
  have hnnn := nnn.isLt
  exact Nat.mod_eq_of_lt (by omega)

theorem onlyPc_jumpTo (s : State) (target : Word) : OnlyPc s (s.jumpTo target) := ⟨rfl, fun _ => rfl⟩

/-! The call stack at a known SP (R40, R41) -/

theorem push_of_full {s : State} (h : s.sp = 16) (val : Word) : s.push val = none :=
  dif_neg (by rw [h]; decide)

theorem push_of_sp {s : State} {j : Fin 16} (h : s.sp.val = j.val) (val : Word) :
    s.push val = some { s with stack := s.stack.set j val, sp := j.succ } := by
  rcases push_cases s val with ⟨_, hfull⟩ | ⟨_, hpush⟩
  · omega
  · simp only [hpush, h]
    rfl

theorem pop_of_empty {s : State} (h : s.sp = 0) : s.pop = none :=
  dif_neg (by rw [h]; decide)

theorem pop_of_sp {s : State} {j : Fin 16} (h : s.sp.val = j.val + 1) :
    s.pop = some (s.stack[j], { s with sp := j.castSucc }) := by
  rcases pop_cases s with ⟨_, hempty⟩ | ⟨_, hpop⟩
  · omega
  · simp only [hpop, h]
    rfl

/-! RET and CALL, case by case (R130, R132) -/

theorem exec_ret_of_empty {s : State} (h : s.sp = 0) : exec .ret s = .next (Raised s 3 0) := by
  simp only [exec, execRet, pop_of_empty h]
  rfl

theorem exec_ret_of_sp {s : State} {j : Fin 16} (h : s.sp.val = j.val + 1) :
    exec .ret s = .next { s with pc := s.stack[j], sp := j.castSucc } := by
  simp only [exec, execRet, pop_of_sp h]
  rfl

theorem exec_call_of_full {s : State} (h : s.sp = 16) (nnn : Addr) :
    exec (.call nnn) s = .next (Raised s 2 ((s.pc + 2).setWidth 32)) := by
  simp only [exec, execCall, push_of_full h]
  rfl

theorem exec_call_of_sp {s : State} {j : Fin 16} (h : s.sp.val = j.val) (nnn : Addr) :
    exec (.call nnn) s =
      .next { s with pc := zext16 nnn, stack := s.stack.set j (s.pc + 2), sp := j.succ } := by
  simp only [exec, execCall, push_of_sp h]
  rfl

/-! The statements -/

/-- Settles O29: by the one word of the pattern and the two cases of a pop. -/
theorem returnPopsThePc : Obligations.ReturnPopsThePc := by
  refine ⟨hasPattern_of_word rfl, fun s => ⟨exec_ret_of_empty, fun j hsp => ?_⟩⟩
  exact ⟨_, exec_ret_of_sp hsp, rfl, rfl, rfl, fun _ => rfl⟩

/-- Settles O30: by the family of the pattern and the two cases of a push; the slot written is the one at the old SP. -/
theorem callPushesTheNextAddress : Obligations.CallPushesTheNextAddress := by
  refine ⟨hasPattern_of_family 0x2 rfl fun _ => decodeWord_of_family2, fun s nnn => ?_⟩
  refine ⟨fun hfull => exec_call_of_full hfull nnn, fun j hsp => ?_⟩
  refine ⟨_, exec_call_of_sp hsp nnn, zext16_toNat nnn, ?pushed, fun l hl => ?others, rfl, rfl, fun _ => rfl⟩
  case pushed => exact Vector.getElem_set_self j.isLt
  case others =>
    have hne : j.val ≠ l.val := fun h => hl (Fin.ext h.symm)
    exact Vector.getElem_set_ne j.isLt l.isLt hne

/-- Settles O32: family 0 is decoded on the whole word, and the SYS operand of such a word is the word itself. -/
theorem sysRaisesUnknownOpcode : Obligations.SysRaisesUnknownOpcode := by
  refine ⟨fun w hw hcls hret => ?_, fun s nnn => rfl⟩
  have hfam : familyOf w = 0x0#4 := familyOf_of_match hw rfl
  have hsys : decodeFamily0 w = .sys (nnnOf w) :=
    decodeFamily0_of_sys (fun h => hcls (BitVec.eq_of_toNat_eq h)) (fun h => hret (BitVec.eq_of_toNat_eq h))
  exact ⟨by rw [decodeWord_of_family0 hfam, hsys], nnnOf_setWidth_of_family0 hfam⟩

/-- Settles O33: by the families of the patterns; each jump is pc <- target, and neither target is truncated. -/
theorem jumpsSetThePc : Obligations.JumpsSetThePc := by
  refine ⟨hasPattern_of_family 0x1 rfl fun _ => decodeWord_of_family1,
    hasPattern_of_family 0xB rfl fun _ => decodeWord_of_familyB, fun s nnn => ⟨?jp, ?jpV0⟩⟩
  case jp => exact ⟨s.jumpTo (zext16 nnn), rfl, zext16_toNat nnn, onlyPc_jumpTo s _⟩
  case jpV0 => exact ⟨s.jumpTo (s.jumpOffset nnn), rfl, jumpOffset_toNat s nnn, onlyPc_jumpTo s _⟩

end Sys2Proof.Proofs
end

section
/-! Proofs of the family 41_skip.md: the skips on a byte (R151, R152) and on a register (R153, R154). -/

namespace Sys2Proof.Proofs

open Machine Laws

/-! Words that match a pattern -/

/-- A pattern of mask F00F fixes the family and the last nibble (R103, R105). -/
theorem hasPattern_of_family_selector {p : Word} {f : Word → Instr} (k n : BitVec 4) (hk : familyOf p = k)
    (hn : selectorOf p = n) (h : ∀ w, familyOf w = k → selectorOf w = n → decodeWord w = .ok (f w)) :
    HasPattern 0xF00F p f :=
  fun w hw => h w ((familyOf_of_match hw (by decide)).trans hk) ((selectorOf_of_match hw (by decide)).trans hn)

/-- The mask 000F keeps exactly the last nibble. -/
theorem and_selector_mask (w : Word) : w &&& 0x000F = (selectorOf w).setWidth 16 := by
  apply BitVec.eq_of_toNat_eq
  rw [BitVec.toNat_setWidth_of_le (by decide), selectorOf_toNat, BitVec.toNat_and]
  exact Nat.and_two_pow_sub_one_eq_mod w.toNat 4

theorem selectorOf_ne_zero_of_and {w : Word} (h : w &&& 0x000F ≠ 0) : selectorOf w ≠ 0x0#4 :=
  fun h0 => h (by rw [and_selector_mask, h0]; rfl)

theorem decodeNeedsZero_of_zero {w : Word} (h : selectorOf w = 0x0#4) (i : Instr) : decodeNeedsZero w i = .ok i :=
  if_pos h

theorem decodeNeedsZero_of_ne_zero {w : Word} (h : selectorOf w ≠ 0x0#4) (i : Instr) :
    decodeNeedsZero w i = .error (.unknownOpcode w) :=
  if_neg h

theorem decodeWord_of_family3 {w : Word} (h : familyOf w = 0x3#4) : decodeWord w = .ok (.seImm (xOf w) (kkOf w)) := by
  simp only [decodeWord, h]

theorem decodeWord_of_family4 {w : Word} (h : familyOf w = 0x4#4) : decodeWord w = .ok (.sneImm (xOf w) (kkOf w)) := by
  simp only [decodeWord, h]

theorem decodeWord_of_family5 {w : Word} (h : familyOf w = 0x5#4) :
    decodeWord w = decodeNeedsZero w (.seReg (xOf w) (yOf w)) := by
  simp only [decodeWord, h]

theorem decodeWord_of_family9 {w : Word} (h : familyOf w = 0x9#4) :
    decodeWord w = decodeNeedsZero w (.sneReg (xOf w) (yOf w)) := by
  simp only [decodeWord, h]

theorem hasPattern_seReg : HasPattern 0xF00F 0x5000 (fun w => .seReg (xOf w) (yOf w)) :=
  hasPattern_of_family_selector 0x5 0x0 rfl rfl fun _ hfam hsel =>
    (decodeWord_of_family5 hfam).trans (decodeNeedsZero_of_zero hsel _)

theorem hasPattern_sneReg : HasPattern 0xF00F 0x9000 (fun w => .sneReg (xOf w) (yOf w)) :=
  hasPattern_of_family_selector 0x9 0x0 rfl rfl fun _ hfam hsel =>
    (decodeWord_of_family9 hfam).trans (decodeNeedsZero_of_zero hsel _)

/-! The skip rule (R150) -/

/-- A skip moves pc past one instruction, or past two where its condition holds. -/
theorem skipIf_pc_eq (s : State) (c : Bool) : (s.skipIf c).pc = if c = true then s.pc + 4 else s.pc + 2 := by
  cases c with
  | true => exact BitVec.add_assoc s.pc 2 2
  | false => rfl

theorem onlyPc_skipIf (s : State) (c : Bool) : OnlyPc s (s.skipIf c) := onlyPc_jumpTo s _

/-- SE: the skip on a condition. -/
theorem skipIf_decide_pc (s : State) (p : Prop) [Decidable p] :
    (s.skipIf (decide p)).pc = if p then s.pc + 4 else s.pc + 2 := by
  simp only [skipIf_pc_eq, decide_eq_true_eq]

/-- SNE: the skip on the negated condition. -/
theorem skipIf_decide_not_pc (s : State) (p : Prop) [Decidable p] :
    (s.skipIf (decide ¬p)).pc = if p then s.pc + 2 else s.pc + 4 := by
  rw [skipIf_decide_pc, ite_not]

/-! The statements -/

/-- Settles O34: by the families of the patterns and the skip rule on Vx = kk and its negation. -/
theorem immediateSkipsMovePcByFourOrTwo : Obligations.ImmediateSkipsMovePcByFourOrTwo := by
  refine ⟨hasPattern_of_family 0x3 rfl fun _ => decodeWord_of_family3,
    hasPattern_of_family 0x4 rfl fun _ => decodeWord_of_family4, fun s x kk => ⟨?se, ?sne⟩⟩
  case se => exact ⟨_, rfl, skipIf_decide_pc s (s.reg x = kk), onlyPc_skipIf s _⟩
  case sne => exact ⟨_, rfl, skipIf_decide_not_pc s (s.reg x = kk), onlyPc_skipIf s _⟩

/-- Settles O35: families 5 and 9 need a last nibble of 0, and the skip rule is applied to Vx = Vy and its negation. -/
theorem registerSkipsMovePcByFourOrTwo : Obligations.RegisterSkipsMovePcByFourOrTwo := by
  refine ⟨hasPattern_seReg, hasPattern_sneReg, fun w hw hn => ?unknown, fun s x y => ⟨?se, ?sne⟩⟩
  case unknown =>
    have hsel : selectorOf w ≠ 0x0#4 := selectorOf_ne_zero_of_and hn
    rcases hw with h5 | h9
    · rw [decodeWord_of_family5 (familyOf_of_match h5 rfl), decodeNeedsZero_of_ne_zero hsel]
    · rw [decodeWord_of_family9 (familyOf_of_match h9 rfl), decodeNeedsZero_of_ne_zero hsel]
  case se => exact ⟨_, rfl, skipIf_decide_pc s (s.reg x = s.reg y), onlyPc_skipIf s _⟩
  case sne => exact ⟨_, rfl, skipIf_decide_not_pc s (s.reg x = s.reg y), onlyPc_skipIf s _⟩

end Sys2Proof.Proofs
end

section
/-! Proofs of the family 42_alu.md: loads and immediate add (R171 to R173), logic (R174 to R176), the flag writers (R177 to
R181) and RND (R182). -/

namespace Sys2Proof.Proofs

open Machine Laws

/-! Words that match a pattern -/

theorem decodeWord_of_family6 {w : Word} (h : familyOf w = 0x6#4) : decodeWord w = .ok (.ldImm (xOf w) (kkOf w)) := by
  simp only [decodeWord, h]

theorem decodeWord_of_family7 {w : Word} (h : familyOf w = 0x7#4) : decodeWord w = .ok (.addImm (xOf w) (kkOf w)) := by
  simp only [decodeWord, h]

theorem decodeWord_of_family8 {w : Word} (h : familyOf w = 0x8#4) : decodeWord w = decodeFamily8 w := by
  simp only [decodeWord, h]

theorem decodeWord_of_familyC {w : Word} (h : familyOf w = 0xC#4) : decodeWord w = .ok (.rnd (xOf w) (kkOf w)) := by
  simp only [decodeWord, h]

/-- R105: a row of family 8 is the arm of the last nibble alone. -/
theorem hasPattern_of_family8 {p : Word} {f : Word → Instr} (n : BitVec 4) (hk : familyOf p = 0x8#4)
    (hn : selectorOf p = n) (h : ∀ w, selectorOf w = n → decodeFamily8 w = .ok (f w)) : HasPattern 0xF00F p f :=
  hasPattern_of_family_selector 0x8 n hk hn fun w hfam hsel => (decodeWord_of_family8 hfam).trans (h w hsel)

theorem hasPattern_ldReg : HasPattern 0xF00F 0x8000 (fun w => .ldReg (xOf w) (yOf w)) :=
  hasPattern_of_family8 0x0#4 rfl rfl fun _ h => by simp only [decodeFamily8, h]

theorem hasPattern_orReg : HasPattern 0xF00F 0x8001 (fun w => .orReg (xOf w) (yOf w)) :=
  hasPattern_of_family8 0x1#4 rfl rfl fun _ h => by simp only [decodeFamily8, h]

theorem hasPattern_andReg : HasPattern 0xF00F 0x8002 (fun w => .andReg (xOf w) (yOf w)) :=
  hasPattern_of_family8 0x2#4 rfl rfl fun _ h => by simp only [decodeFamily8, h]

theorem hasPattern_xorReg : HasPattern 0xF00F 0x8003 (fun w => .xorReg (xOf w) (yOf w)) :=
  hasPattern_of_family8 0x3#4 rfl rfl fun _ h => by simp only [decodeFamily8, h]

theorem hasPattern_addReg : HasPattern 0xF00F 0x8004 (fun w => .addReg (xOf w) (yOf w)) :=
  hasPattern_of_family8 0x4#4 rfl rfl fun _ h => by simp only [decodeFamily8, h]

theorem hasPattern_sub : HasPattern 0xF00F 0x8005 (fun w => .sub (xOf w) (yOf w)) :=
  hasPattern_of_family8 0x5#4 rfl rfl fun _ h => by simp only [decodeFamily8, h]

theorem hasPattern_shr : HasPattern 0xF00F 0x8006 (fun w => .shr (xOf w) (yOf w)) :=
  hasPattern_of_family8 0x6#4 rfl rfl fun _ h => by simp only [decodeFamily8, h]

theorem hasPattern_subn : HasPattern 0xF00F 0x8007 (fun w => .subn (xOf w) (yOf w)) :=
  hasPattern_of_family8 0x7#4 rfl rfl fun _ h => by simp only [decodeFamily8, h]

theorem hasPattern_shl : HasPattern 0xF00F 0x800E (fun w => .shl (xOf w) (yOf w)) :=
  hasPattern_of_family8 0xE#4 rfl rfl fun _ h => by simp only [decodeFamily8, h]

/-! The register written, the flag, and the frame of both (R184) -/

theorem finish_reg_self (s : State) (x : Reg) (b : Byte) : (s.finish x b).reg x = b := by
  rw [finish_reg, if_pos rfl]

theorem finish_reg_of_ne (s : State) {x y : Reg} (b : Byte) (h : y ≠ x) : (s.finish x b).reg y = s.reg y := by
  rw [finish_reg, if_neg h.symm]

theorem onlyRegs_finish (s : State) (x : Reg) (b : Byte) : OnlyRegs s (s.finish x b) [x] :=
  ⟨rfl, fun _ hy => finish_reg_of_ne s b (List.ne_of_not_mem_cons hy), fun _ => rfl⟩

/-- The flag is written last, so it stands in VF for every x. -/
theorem finishFlag_reg_flag (s : State) (x : Reg) (b f : Byte) : (s.finishFlag x b f).reg 15 = f := by
  rw [finishFlag_reg, if_pos rfl]

theorem finishFlag_reg_self (s : State) {x : Reg} (b f : Byte) (h : x ≠ 15) : (s.finishFlag x b f).reg x = b := by
  rw [finishFlag_reg, if_neg h.symm, if_pos rfl]

theorem finishFlag_reg_of_ne (s : State) {x y : Reg} (b f : Byte) (hx : y ≠ x) (hF : y ≠ 15) :
    (s.finishFlag x b f).reg y = s.reg y := by
  rw [finishFlag_reg, if_neg hF.symm, if_neg hx.symm]

theorem onlyRegs_finishFlag (s : State) (x : Reg) (b f : Byte) : OnlyRegs s (s.finishFlag x b f) [x, 15] := by
  refine ⟨rfl, fun y hy => ?_, fun _ => rfl⟩
  have hx : y ≠ x := List.ne_of_not_mem_cons hy
  have hF : y ≠ 15 := List.ne_of_not_mem_cons (List.not_mem_of_not_mem_cons hy)
  exact finishFlag_reg_of_ne s b f hx hF

/-! The flags and results as numbers -/

theorem flagOf_decide (p : Prop) [Decidable p] : flagOf (decide p) = if p then 1 else 0 := by
  simp only [flagOf, decide_eq_true_eq]

theorem flagOf_toNat (c : Bool) : (flagOf c).toNat = c.toNat := by cases c <;> rfl

theorem carryFlag_eq (a b : Byte) : carryFlag a b = if a.toNat + b.toNat > 255 then 1 else 0 := flagOf_decide _

theorem greaterFlag_eq (a b : Byte) : greaterFlag a b = if a.toNat > b.toNat then 1 else 0 := flagOf_decide _

theorem shiftedOutRight_toNat (a : Byte) : (shiftedOutRight a).toNat = a.toNat % 2 := by
  rw [shiftedOutRight, flagOf_toNat, BitVec.getLsbD, Nat.toNat_testBit, pow_zero, Nat.div_one]

/-- Old bit 7 is the quotient by 128, for a byte is below 256. -/
theorem shiftedOutLeft_toNat (a : Byte) : (shiftedOutLeft a).toNat = a.toNat / 128 := by
  have ha := a.isLt
  rw [shiftedOutLeft, flagOf_toNat, BitVec.getLsbD, Nat.toNat_testBit]
  omega

theorem byte_sub_toNat (a b : Byte) : (a - b).toNat = (a.toNat + 256 - b.toNat) % 256 := by
  have hb := b.isLt
  rw [BitVec.toNat_sub]
  omega

theorem byte_shiftLeft_one_toNat (a : Byte) : (a <<< (1 : Nat)).toNat = 2 * a.toNat % 256 := by
  rw [BitVec.toNat_shiftLeft, Nat.shiftLeft_eq, Nat.mul_comm]

/-- R178: what a subtraction of b from a leaves, over any operands. -/
theorem finishFlag_difference (s : State) (x : Reg) (a b : Byte) :
    (x ≠ 15 → ((s.finishFlag x (a - b) (greaterFlag a b)).reg x).toNat = (a.toNat + 256 - b.toNat) % 256) ∧
    (s.finishFlag x (a - b) (greaterFlag a b)).reg 15 = (if a.toNat > b.toNat then 1 else 0) ∧
    (s.finishFlag x (a - b) (greaterFlag a b)).pc = s.pc + 2 ∧
    OnlyRegs s (s.finishFlag x (a - b) (greaterFlag a b)) [x, 15] := by
  refine ⟨fun hx => ?difference, ?flag, rfl, onlyRegs_finishFlag s x _ _⟩
  case difference => rw [finishFlag_reg_self s _ _ hx, byte_sub_toNat]
  case flag => rw [finishFlag_reg_flag, greaterFlag_eq]

/-! The statements -/

/-- Settles O37: by the families of the patterns; each instruction writes Vx alone, the second the wrapped sum. -/
theorem immediateLoadAndAdd : Obligations.ImmediateLoadAndAdd := by
  refine ⟨hasPattern_of_family 0x6 rfl fun _ => decodeWord_of_family6,
    hasPattern_of_family 0x7 rfl fun _ => decodeWord_of_family7, fun s x kk => ⟨?ldImm, ?addImm⟩⟩
  case ldImm => exact ⟨_, rfl, finish_reg_self s x kk, rfl, onlyRegs_finish s x kk⟩
  case addImm =>
    refine ⟨_, rfl, ?_, rfl, onlyRegs_finish s x (s.reg x + kk)⟩
    rw [finish_reg_self, BitVec.toNat_add]

/-- Settles O38: each instruction writes Vx alone, with Vy or with a word operation taken bit by bit. -/
theorem moveAndLogicAreBitwise : Obligations.MoveAndLogicAreBitwise := by
  refine ⟨hasPattern_ldReg, hasPattern_orReg, hasPattern_andReg, hasPattern_xorReg,
    fun s x y => ⟨?ldReg, ?orReg, ?andReg, ?xorReg⟩⟩
  case ldReg => exact ⟨_, rfl, finish_reg_self s x (s.reg y), rfl, onlyRegs_finish s x _⟩
  case orReg =>
    refine ⟨_, rfl, fun b _ => ?_, rfl, onlyRegs_finish s x (s.reg x ||| s.reg y)⟩
    rw [finish_reg_self, BitVec.getLsbD_or]
  case andReg =>
    refine ⟨_, rfl, fun b _ => ?_, rfl, onlyRegs_finish s x (s.reg x &&& s.reg y)⟩
    rw [finish_reg_self, BitVec.getLsbD_and]
  case xorReg =>
    refine ⟨_, rfl, fun b _ => ?_, rfl, onlyRegs_finish s x (s.reg x ^^^ s.reg y)⟩
    rw [finish_reg_self, BitVec.getLsbD_xor]

/-- Settles O39: the sum stands in Vx unless x = F, and the carry of the pre-step operands in VF for every x. -/
theorem addWritesSumThenCarry : Obligations.AddWritesSumThenCarry := by
  refine ⟨hasPattern_addReg, fun s x y => ⟨_, rfl, fun hx => ?sum, ?carry, rfl, onlyRegs_finishFlag s x _ _⟩⟩
  case sum => rw [finishFlag_reg_self s _ _ hx, BitVec.toNat_add]
  case carry => rw [finishFlag_reg_flag, carryFlag_eq]

/-- Settles O40: both are the flag writer of a difference, SUBN with the operands of SUB exchanged. -/
theorem subtractionsWriteDifferenceThenFlag : Obligations.SubtractionsWriteDifferenceThenFlag := by
  refine ⟨hasPattern_sub, hasPattern_subn, fun s x y => ⟨?sub, ?subn⟩⟩
  case sub => exact ⟨_, rfl, finishFlag_difference s x (s.reg x) (s.reg y)⟩
  case subn => exact ⟨_, rfl, finishFlag_difference s x (s.reg y) (s.reg x)⟩

/-- Settles O41: a shift by one is the quotient or the double, and the bit shifted out is the remainder or the top bit. -/
theorem shiftsMoveByOneBit : Obligations.ShiftsMoveByOneBit := by
  refine ⟨hasPattern_shr, hasPattern_shl, fun s x y => ⟨?shr, ?shl⟩⟩
  case shr =>
    refine ⟨_, rfl, fun hx => ?half, ?bit, rfl, onlyRegs_finishFlag s x _ _⟩
    case half => rw [finishFlag_reg_self s _ _ hx, BitVec.toNat_ushiftRight, Nat.shiftRight_one]
    case bit => rw [finishFlag_reg_flag, shiftedOutRight_toNat]
  case shl =>
    refine ⟨_, rfl, fun hx => ?double, ?bit, rfl, onlyRegs_finishFlag s x _ _⟩
    case double => rw [finishFlag_reg_self s _ _ hx, byte_shiftLeft_one_toNat]
    case bit => rw [finishFlag_reg_flag, shiftedOutLeft_toNat]

/-- Settles O42: RND writes RNGS once and then Vx, whatever kk is, so the frame is that of a register write. -/
theorem randomDrawsOneByte : Obligations.RandomDrawsOneByte := by
  refine ⟨hasPattern_of_family 0xC rfl fun _ => decodeWord_of_familyC, fun s x kk => ?_⟩
  refine ⟨_, rfl, fun b _ => ?drawn, rfl, fun y hy => finish_reg_of_ne _ _ hy, rfl, rfl, fun _ => rfl⟩
  case drawn => rw [finish_reg_self, BitVec.getLsbD_and]

end Sys2Proof.Proofs
end

section
/-! Proofs of the family 43_index_memory.md: the index loads (R200, R204), ADD I (R202, R203), BCD (R205), and the register
dump and load (R206, R207). -/

namespace Sys2Proof.Proofs

open Machine Laws

/-! Words that match a pattern -/

theorem decodeWord_of_familyA {w : Word} (h : familyOf w = 0xA#4) : decodeWord w = .ok (.ldI (nnnOf w)) := by
  simp only [decodeWord, h]

theorem decodeWord_of_familyF {w : Word} (h : familyOf w = 0xF#4) : decodeWord w = decodeFamilyF w := by
  rw [decodeWord, h]
  rfl

/-- R107: a row of family F is the arm of the low byte alone. -/
theorem hasPattern_of_familyF {p : Word} {f : Word → Instr} (kk : Byte) (hk : familyOf p = 0xF#4) (hkk : kkOf p = kk)
    (h : ∀ w, kkOf w = kk → decodeFamilyF w = .ok (f w)) : HasPattern 0xF0FF p f := by
  intro w hw
  have hfam : familyOf w = 0xF#4 := (familyOf_of_match hw (by decide)).trans hk
  have hlow : kkOf w = kk := (kkOf_of_match hw (by decide)).trans hkk
  rw [decodeWord_of_familyF hfam, h w hlow]

theorem hasPattern_addI : HasPattern 0xF0FF 0xF01E (fun w => .addI (xOf w)) :=
  hasPattern_of_familyF 0x1E#8 rfl rfl fun _ h => by simp only [decodeFamilyF, h]

theorem hasPattern_ldF : HasPattern 0xF0FF 0xF029 (fun w => .ldF (xOf w)) :=
  hasPattern_of_familyF 0x29#8 rfl rfl fun _ h => by simp only [decodeFamilyF, h]

theorem hasPattern_ldB : HasPattern 0xF0FF 0xF033 (fun w => .ldB (xOf w)) :=
  hasPattern_of_familyF 0x33#8 rfl rfl fun _ h => by simp only [decodeFamilyF, h]

theorem hasPattern_ldMemVx : HasPattern 0xF0FF 0xF055 (fun w => .ldMemVx (xOf w)) :=
  hasPattern_of_familyF 0x55#8 rfl rfl fun _ h => by simp only [decodeFamilyF, h]

theorem hasPattern_ldVxMem : HasPattern 0xF0FF 0xF065 (fun w => .ldVxMem (xOf w)) :=
  hasPattern_of_familyF 0x65#8 rfl rfl fun _ h => by simp only [decodeFamilyF, h]

/-! The index register -/

theorem onlyIndex_finishI (s : State) (val : Word) : OnlyIndex s (s.finishI val) := ⟨rfl, fun _ => rfl⟩

/-- R204: the glyph address is at most 0xFFF + 75, so the 16-bit value is the exact sum. -/
theorem glyphAddress_toNat (c : Config) (b : Byte) :
    (glyphAddress c b).toNat = c.fontBase.toNat + 5 * (b.toNat % 16) := by
  have hbase := c.fontBase.isLt
  exact Nat.mod_eq_of_lt (by omega)

/-- R202: ADD I where FX1E_VF is false writes I alone. -/
theorem exec_addI_of_keepsVf {s : State} (h : s.cfg.fx1eVf = false) (x : Reg) :
    exec (.addI x) s = .next (s.finishI (BitVec.ofNat 16 (s.i.toNat + (s.reg x).toNat))) := by
  simp only [exec, execAddI, h, Bool.false_eq_true, if_false]

/-- R203: ADD I where FX1E_VF is true writes I and the flag. -/
theorem exec_addI_of_writesVf {s : State} (h : s.cfg.fx1eVf = true) (x : Reg) :
    exec (.addI x) s = .next ((s.setFlag (indexOverflowFlag s.i (s.reg x))).finishI
      (BitVec.ofNat 16 (s.i.toNat + (s.reg x).toNat))) := by
  simp only [exec, execAddI, h, if_true]

theorem setFlag_reg_of_ne (s : State) {y : Reg} (f : Byte) (h : y ≠ 15) : (s.setFlag f).reg y = s.reg y := by
  rw [setFlag_reg, if_neg h.symm]

theorem indexOverflowFlag_eq (i : Word) (b : Byte) :
    indexOverflowFlag i b = if i.toNat + b.toNat > 0xFFF then 1 else 0 := flagOf_decide _

/-! Stores at I -/

/-- A raised address is AddressOutOfRange, code 4 (R280, R284). -/
theorem raiseAddress_eq_raised (s : State) (a : Nat) : s.raiseAddress a = Raised s 4 (BitVec.ofNat 32 a) := rfl

theorem storeAndAdvance_of_ok {s : State} {bs : List Byte} {m : Memory} (h : s.storeAtI bs = .ok m) :
    s.storeAndAdvance bs = { s with mem := m }.advance := by
  simp only [State.storeAndAdvance, h]

theorem storeAndAdvance_of_error {s : State} {bs : List Byte} {a : Nat} (h : s.storeAtI bs = .error a) :
    s.storeAndAdvance bs = s.raiseAddress a := by
  simp only [State.storeAndAdvance, h]

/-- R288: a store with a bad address raises the first one and stores nothing. -/
theorem storeAndAdvance_of_firstBad {s : State} {bs : List Byte} {j : Nat} (h : FirstBadAtI s bs.length j) :
    s.storeAndAdvance bs = Raised s 4 (BitVec.ofNat 32 (s.i.toNat + j)) := by
  obtain ⟨hj, hgood, hbad⟩ := h
  rw [storeAndAdvance_of_error (storeFrom_firstBad hj hbad hgood), raiseAddress_eq_raised]

/-- The memory of t holds the bytes at I, I+1, ... of s, each at its own physical address (R73). -/
def HoldsAtI (s t : State) (bs : List Byte) : Prop :=
  ∀ j (hj : j < bs.length) a, s.ea (s.i.toNat + j) = some a → t.byteAt a = bs[j]

/-- A store whose addresses are all in range puts each byte at its address, moves pc by 2 and changes nothing else; the
addresses of at most 4096 bytes are distinct, so no byte overwrites another. -/
theorem storeAndAdvance_of_inRange {s : State} {bs : List Byte} (hlen : bs.length ≤ 4096)
    (h : InRangeAtI s bs.length) :
    HoldsAtI s (s.storeAndAdvance bs) bs ∧ (s.storeAndAdvance bs).pc = s.pc + 2 ∧
      OnlyBytesAtI s (s.storeAndAdvance bs) bs.length := by
  obtain ⟨m, hm⟩ := storeFrom_of_inRange h
  obtain ⟨hwritten, hother, -⟩ := storeFrom_ok hm hlen
  rw [storeAndAdvance_of_ok hm]
  refine ⟨fun j hj a ha => ?_, rfl, rfl, hother⟩
  obtain ⟨p, hp, hread⟩ := hwritten j hj
  obtain rfl : p = a := Option.some.inj (hp.symm.trans ha)
  exact hread

theorem bcdDigits_length (b : Byte) : (bcdDigits b).length = 3 := rfl

/-- R205: a digit of a byte fits a byte. -/
theorem digit_toNat {d : Nat} (h : d ≤ 9) : (BitVec.ofNat 8 d).toNat = d := Nat.mod_eq_of_lt (by omega)

/-! Registers from memory -/

theorem exec_ldVxMem_of_ok {s : State} {x : Reg} {bs : List Byte} (h : s.loadAtI (x.val + 1) = .ok bs) :
    exec (.ldVxMem x) s = .next { s with v := setRegsFrom s.v 0 bs }.advance := by
  simp only [exec, execLdVxMem, h]

/-- R288: a load with a bad address raises the first one and loads nothing. -/
theorem exec_ldVxMem_of_firstBad {s : State} {x : Reg} {j : Nat} (h : FirstBadAtI s (x.val + 1) j) :
    exec (.ldVxMem x) s = .next (Raised s 4 (BitVec.ofNat 32 (s.i.toNat + j))) := by
  obtain ⟨hj, hgood, hbad⟩ := h
  have hload : s.loadAtI (x.val + 1) = .error (s.i.toNat + j) := loadFrom_firstBad hj hbad hgood
  simp only [exec, execLdVxMem, hload, raiseAddress_eq_raised]

/-- A register among the first ones takes its byte of the list. -/
theorem setRegsFrom_zero_of_lt (v : Vector Byte 16) {bs : List Byte} {y : Reg} (h : y.val < bs.length) :
    (setRegsFrom v 0 bs)[y] = bs[y.val] :=
  (setRegsFrom_get v 0 bs y.val y.isLt).trans (dif_pos ⟨Nat.zero_le _, by omega⟩)

/-- A register past the end of the list is kept. -/
theorem setRegsFrom_zero_of_le (v : Vector Byte 16) {bs : List Byte} {y : Reg} (h : bs.length ≤ y.val) :
    (setRegsFrom v 0 bs)[y] = v[y] :=
  (setRegsFrom_get v 0 bs y.val y.isLt).trans (dif_neg (by omega))

/-! The statements -/

/-- Settles O43: by the patterns; each instruction writes I alone, and neither value is truncated. -/
theorem indexLoads : Obligations.IndexLoads := by
  refine ⟨hasPattern_of_family 0xA rfl fun _ => decodeWord_of_familyA, hasPattern_ldF,
    fun s => ⟨fun nnn => ?ldI, fun x => ?ldF⟩⟩
  case ldI => exact ⟨_, rfl, zext16_toNat nnn, rfl, onlyIndex_finishI s _⟩
  case ldF => exact ⟨_, rfl, glyphAddress_toNat s.cfg (s.reg x), rfl, onlyIndex_finishI s _⟩

/-- Settles O44: by the two readings of FX1E_VF; the sum is taken modulo 2^16 in both. -/
theorem addToIndexWraps : Obligations.AddToIndexWraps := by
  refine ⟨hasPattern_addI, fun s x => ?_⟩
  have hsum := BitVec.toNat_ofNat (s.i.toNat + (s.reg x).toNat) 16
  cases hcfg : s.cfg.fx1eVf with
  | false =>
    exact ⟨_, exec_addI_of_keepsVf hcfg x, hsum, fun _ => rfl, nofun, fun _ _ => rfl, rfl, rfl, fun _ => rfl⟩
  | true =>
    refine ⟨_, exec_addI_of_writesVf hcfg x, hsum, nofun, fun _ => ?flag, fun y hy => ?others, rfl, rfl,
      fun _ => rfl⟩
    case flag => rw [finishI_reg, setFlag_reg, if_pos rfl, indexOverflowFlag_eq]
    case others => rw [finishI_reg, setFlag_reg_of_ne s _ hy]

/-- Settles O45: the three digits are stored as one list at I, in full or not at all, and each digit fits its byte. -/
theorem bcdStoresThreeDigits : Obligations.BcdStoresThreeDigits := by
  refine ⟨hasPattern_ldB, fun s x => ⟨fun hin => ?stored, fun j hbad => ?raised⟩⟩
  case stored =>
    have hlt := (s.reg x).isLt
    have hlen := bcdDigits_length (s.reg x)
    obtain ⟨hbytes, hpc, hframe⟩ := storeAndAdvance_of_inRange (bs := bcdDigits (s.reg x)) (by omega) hin
    refine ⟨_, rfl, fun a ha => ?hundreds, fun a ha => ?tens, fun a ha => ?ones, hpc, hframe⟩
    case hundreds => rw [hbytes 0 (by omega) a ha]; exact digit_toNat (by omega)
    case tens => rw [hbytes 1 (by omega) a ha]; exact digit_toNat (by omega)
    case ones => rw [hbytes 2 (by omega) a ha]; exact digit_toNat (by omega)
  case raised => exact congrArg Host.Outcome.next (storeAndAdvance_of_firstBad (bs := bcdDigits (s.reg x)) hbad)

/-- Settles O46: V0 to Vx are stored as one list of x + 1 bytes at I, in full or not at all. -/
theorem registerDumpStoresRegisters : Obligations.RegisterDumpStoresRegisters := by
  refine ⟨hasPattern_ldMemVx, fun s x => ?_⟩
  rw [← regsUpTo_length s x]
  refine ⟨fun hin => ?stored, fun j hbad => ?raised⟩
  case stored =>
    have hx := x.isLt
    have hlen : (s.regsUpTo x).length ≤ 4096 := by rw [regsUpTo_length]; omega
    obtain ⟨hbytes, hpc, hframe⟩ := storeAndAdvance_of_inRange hlen hin
    refine ⟨_, rfl, fun y hy a ha => ?register, hpc, hframe⟩
    case register =>
      have hlt : y.val < (s.regsUpTo x).length := by rw [regsUpTo_length]; exact Nat.lt_succ_of_le hy
      rw [hbytes y.val hlt a ha, regsUpTo_get]
  case raised => exact congrArg Host.Outcome.next (storeAndAdvance_of_firstBad hbad)

/-- Settles O47: the load answers x + 1 bytes, each read through EA, and they fill V0 to Vx; or it raises. -/
theorem registerLoadReadsMemory : Obligations.RegisterLoadReadsMemory := by
  refine ⟨hasPattern_ldVxMem, fun s x => ⟨fun hin => ?loaded, fun j => exec_ldVxMem_of_firstBad⟩⟩
  case loaded =>
    obtain ⟨bs, hload⟩ := loadFrom_of_inRange hin
    obtain ⟨hlen, hread⟩ := loadFrom_ok hload
    refine ⟨_, exec_ldVxMem_of_ok hload, fun y hy a ha => ?written, fun y hy => ?kept, rfl, rfl, fun _ => rfl⟩
    case written =>
      have hlt : y.val < bs.length := hlen ▸ Nat.lt_succ_of_le hy
      obtain ⟨p, hp, hbyte⟩ := hread y.val hlt
      obtain rfl : p = a := Option.some.inj (hp.symm.trans ha)
      exact (setRegsFrom_zero_of_lt s.v hlt).trans hbyte
    case kept => exact setRegsFrom_zero_of_le s.v (hlen ▸ Nat.succ_le_of_lt hy)

end Sys2Proof.Proofs
end

section
/-! Proofs of the family 44_display.md: CLS (R231), Dxyn (R230, R232 to R234) and FB_DIRTY (R236). -/

namespace Sys2Proof.Proofs

open Machine Laws

theorem decodeWord_of_familyD {w : Word} (h : familyOf w = 0xD#4) :
    decodeWord w = .ok (.drw (xOf w) (yOf w) (nOf w)) := by
  simp only [decodeWord, h]

/-! A draw of the loaded bytes -/

/-- The state Dxyn leaves where its sprite bytes are bs (R232); `exec_drw_of_ok` ties it to the instruction. -/
def drawn (s : State) (x y : Reg) (bs : List Byte) : State :=
  ({ s with fb := (drawSprite s.fb (s.reg x).toNat (s.reg y).toNat bs).1 }.setFlag
    (collisionFlag (drawSprite s.fb (s.reg x).toNat (s.reg y).toNat bs).2)).advance

theorem exec_drw_of_ok {s : State} {n : Fin 16} {bs : List Byte} (h : s.loadAtI n.val = .ok bs) (x y : Reg) :
    exec (.drw x y n) s = .next (drawn s x y bs) := by
  simp only [exec, execDrw, h, drawn]

/-- R288: a draw with a bad sprite address raises the first one and draws nothing. -/
theorem exec_drw_of_firstBad {s : State} {n : Fin 16} {j : Nat} (h : FirstBadAtI s n.val j) (x y : Reg) :
    exec (.drw x y n) s = .next (Raised s 4 (BitVec.ofNat 32 (s.i.toNat + j))) := by
  obtain ⟨hj, hgood, hbad⟩ := h
  have hload : s.loadAtI n.val = .error (s.i.toNat + j) := loadFrom_firstBad hj hbad hgood
  simp only [exec, execDrw, hload, raiseAddress_eq_raised]

theorem drawn_pixel (s : State) (x y : Reg) (bs : List Byte) (px : Fin 64) (py : Fin 32) :
    (drawn s x y bs).pixel px py = pixelOf (drawSprite s.fb (s.reg x).toNat (s.reg y).toNat bs).1 px py := rfl

theorem drawn_reg_flag (s : State) (x y : Reg) (bs : List Byte) :
    (drawn s x y bs).reg 15 = collisionFlag (drawSprite s.fb (s.reg x).toNat (s.reg y).toNat bs).2 := by
  rw [drawn, advance_reg, setFlag_reg, if_pos rfl]

theorem drawn_reg_of_ne (s : State) (x y : Reg) (bs : List Byte) {z : Reg} (h : z ≠ 15) :
    (drawn s x y bs).reg z = s.reg z := by
  rw [drawn, advance_reg, setFlag_reg_of_ne _ _ h]
  rfl

/-- A draw leaves the bytes of its sprite and I, so a second draw loads the same sprite. -/
theorem drawn_loadAtI (s : State) (x y : Reg) (bs : List Byte) (n : Nat) :
    (drawn s x y bs).loadAtI n = s.loadAtI n := rfl

/-- R234: a draw leaves the place of its sprite where its flag is neither of the two coordinates. -/
theorem spriteSets_drawn_iff (s : State) {x y : Reg} (hx : x ≠ 15) (hy : y ≠ 15) (bs : List Byte) (n : Fin 16)
    (px : Fin 64) (py : Fin 32) : SpriteSets (drawn s x y bs) x y n px py ↔ SpriteSets s x y n px py := by
  unfold SpriteSets
  rw [drawn_reg_of_ne s x y bs hx, drawn_reg_of_ne s x y bs hy]
  rfl

section LoadedSprite
variable {s : State} {n : Fin 16} {bs : List Byte} {x y : Reg} {px : Fin 64} {py : Fin 32}

/-- R232: a pixel some set bit lands on is toggled. -/
theorem drawn_pixel_of_sets (hload : s.loadAtI n.val = .ok bs) (h : SpriteSets s x y n px py) :
    (drawn s x y bs).pixel px py = !s.pixel px py := by
  rw [drawn_pixel]
  exact (drawSprite_pixel s.fb _ _ bs px py).1 ((spriteLands_iff hload x y px py).mpr h)

/-- R232: every other pixel is kept. -/
theorem drawn_pixel_of_not_sets (hload : s.loadAtI n.val = .ok bs) (h : ¬ SpriteSets s x y n px py) :
    (drawn s x y bs).pixel px py = s.pixel px py := by
  rw [drawn_pixel]
  exact (drawSprite_pixel s.fb _ _ bs px py).2 (mt (spriteLands_iff hload x y px py).mp h)

/-- R232: the draw collides where a set bit lands on a set pixel. -/
theorem drawSprite_collide_iff (hload : s.loadAtI n.val = .ok bs) :
    (drawSprite s.fb (s.reg x).toNat (s.reg y).toNat bs).2 = true ↔
      ∃ px py, SpriteSets s x y n px py ∧ s.pixel px py = true := by
  simp only [drawSprite_collide, spriteLands_iff hload]
  rfl

theorem drawn_reg_flag_of_collision (hload : s.loadAtI n.val = .ok bs)
    (h : ∃ px py, SpriteSets s x y n px py ∧ s.pixel px py = true) : (drawn s x y bs).reg 15 = 1 := by
  rw [drawn_reg_flag, (drawSprite_collide_iff hload).mpr h]
  rfl

theorem drawn_reg_flag_of_no_collision (hload : s.loadAtI n.val = .ok bs)
    (h : ∀ px py, SpriteSets s x y n px py → s.pixel px py = false) : (drawn s x y bs).reg 15 = 0 := by
  have hnone : ¬ ∃ px py, SpriteSets s x y n px py ∧ s.pixel px py = true := by
    rintro ⟨px, py, hset, hon⟩
    exact Bool.false_ne_true ((h px py hset).symm.trans hon)
  rw [drawn_reg_flag, Bool.eq_false_of_not_eq_true (mt (drawSprite_collide_iff hload).mp hnone)]
  rfl

end LoadedSprite

/-! FB_DIRTY (R236) -/

/-- R302: what the command STEP answers, beside the state its step leaves. -/
theorem command_step_stepped {s t : State} {st : StepStatus} {d : Bool}
    (h : command .step s = .next (t, .stepped st d)) : step s = .next t ∧ st = t.status ∧ d = fbDirty s t := by
  simp only [command] at h
  cases hstep : step s with
  | next u =>
    rw [hstep] at h
    cases h
    exact ⟨rfl, rfl, rfl⟩
  | fault f => cases f
  | refused r => rw [hstep] at h; cases h

theorem drawsWord_iff (w : Word) :
    drawsWord w = true ↔ decodeWord w = .ok .cls ∨ ∃ x y n, decodeWord w = .ok (.drw x y n) := by
  unfold drawsWord
  split
  next h => simp [h]
  next x y n h => simp [h]
  next hcls hdrw => simpa using ⟨hcls, hdrw⟩

theorem fbDirty_iff (s t : State) :
    fbDirty s t = true ↔ s.Running ∧ t.errCode = 0 ∧ ∃ w, s.fetchWord = .ok w ∧ drawsWord w = true := by
  cases hf : s.fetchWord <;> simp [fbDirty, State.Running, hf, and_assoc]

/-- The next step executes an instruction that draws. -/
theorem executes_draw_iff (s : State) :
    (s.Executes .cls ∨ ∃ x y n, s.Executes (.drw x y n)) ↔
      s.Running ∧ ∃ w, s.fetchWord = .ok w ∧ drawsWord w = true := by
  simp only [drawsWord_iff]
  constructor
  · rintro (⟨hr, w, hf, hd⟩ | ⟨x, y, n, hr, w, hf, hd⟩)
    · exact ⟨hr, w, hf, .inl hd⟩
    · exact ⟨hr, w, hf, .inr ⟨x, y, n, hd⟩⟩
  · rintro ⟨hr, w, hf, hd | ⟨x, y, n, hd⟩⟩
    · exact .inl ⟨hr, w, hf, hd⟩
    · exact .inr ⟨x, y, n, hr, w, hf, hd⟩

/-! The statements -/

/-- Settles O25: the bytes load or the first bad address is raised; a loaded sprite toggles the pixels its bits land on,
and the flag is written last. -/
theorem drawTogglesExactlyTheSpritePixels : Obligations.DrawTogglesExactlyTheSpritePixels := by
  refine ⟨hasPattern_of_family 0xD rfl fun _ => decodeWord_of_familyD,
    fun s x y n => ⟨fun hin => ?drawn, fun j hbad => exec_drw_of_firstBad hbad x y⟩⟩
  case drawn =>
    obtain ⟨bs, hload⟩ := loadFrom_of_inRange hin
    exact ⟨_, exec_drw_of_ok hload x y, fun _ _ => drawn_pixel_of_sets hload, fun _ _ => drawn_pixel_of_not_sets hload,
      drawn_reg_flag_of_collision hload, drawn_reg_flag_of_no_collision hload, fun _ => drawn_reg_of_ne s x y bs,
      rfl, rfl, fun _ => rfl⟩

/-- Settles O27: the second draw loads the same sprite at the same place and toggles the same pixels back; it collides
where the first one set a pixel. -/
theorem drawingTwiceRestoresTheScreen : Obligations.DrawingTwiceRestoresTheScreen := by
  intro s x y n hx hy hin
  obtain ⟨bs, hload⟩ := loadFrom_of_inRange hin
  have hload' : (drawn s x y bs).loadAtI n.val = .ok bs := (drawn_loadAtI s x y bs n.val).trans hload
  have hsets := spriteSets_drawn_iff s hx hy bs n
  refine ⟨_, _, exec_drw_of_ok hload x y, exec_drw_of_ok hload' x y, fun px py => ?restored, ?collides, ?sets⟩
  case restored =>
    by_cases h : SpriteSets s x y n px py
    · rw [drawn_pixel_of_sets hload' ((hsets px py).mpr h), drawn_pixel_of_sets hload h, Bool.not_not]
    · rw [drawn_pixel_of_not_sets hload' (mt (hsets px py).mp h), drawn_pixel_of_not_sets hload h]
  case collides =>
    rintro ⟨px, py, hset, hoff⟩
    refine drawn_reg_flag_of_collision hload' ⟨px, py, (hsets px py).mpr hset, ?_⟩
    rw [drawn_pixel_of_sets hload hset, hoff, Bool.not_false]
  case sets =>
    intro hon
    refine drawn_reg_flag_of_no_collision hload' fun px py hset' => ?_
    have hset := (hsets px py).mp hset'
    rw [drawn_pixel_of_sets hload hset, hon px py hset, Bool.not_true]

/-- The counterexample to O28: every pixel is on, and I is at the first row of the glyph 0, the byte F0. -/
def litScreen : State := { State.reset with fb := Vector.replicate 32 (BitVec.allOnes 64), i := 0x050 }

theorem litScreen_pixel (px : Fin 64) (py : Fin 32) : litScreen.pixel px py = true := by
  have hrow : litScreen.fb[py] = BitVec.allOnes 64 := Vector.getElem_replicate py.isLt
  rw [State.pixel, pixelOf, hrow, BitVec.getLsbD_allOnes]
  exact decide_eq_true px.isLt

theorem litScreen_inRange : InRangeAtI litScreen (1 : Fin 16).val := by
  unfold InRangeAtI
  decide

/-- Bit 7 of the sprite byte lands on the pixel (0, 0), for every register is 0. -/
theorem litScreen_sets : SpriteSets litScreen 0 0 1 0 0 :=
  ⟨0, 0, 0x050, by decide, by decide, by decide, by decide, by decide, by decide⟩

/-- Refutes O28: on a screen with every pixel on, the first draw only clears pixels and the second only sets them, so
the second writes VF = 0. -/
theorem not_secondDrawCollidesOnEveryScreen : ¬ Obligations.SecondDrawCollidesOnEveryScreen := by
  intro h
  have hx : (0 : Reg) ≠ 15 := by decide
  obtain ⟨t, u, ht, hu, hflag⟩ := h litScreen 0 0 1 hx hx litScreen_inRange ⟨0, 0, litScreen_sets⟩
  obtain ⟨t', u', ht', hu', -, -, hclear⟩ := drawingTwiceRestoresTheScreen litScreen 0 0 1 hx hx litScreen_inRange
  obtain rfl : t' = t := Host.Outcome.next.inj (ht'.symm.trans ht)
  obtain rfl : u' = u := Host.Outcome.next.inj (hu'.symm.trans hu)
  have hzero : u'.reg 15 = 0 := hclear fun px py _ => litScreen_pixel px py
  exact absurd (hzero.symm.trans hflag) (by decide)

/-- Settles O59: FB_DIRTY tests that the step ran an instruction that draws and that no error is latched after it. -/
theorem fbDirtyMarksCommittedDraws : Obligations.FbDirtyMarksCommittedDraws := by
  intro s t st d h
  obtain ⟨-, -, rfl⟩ := command_step_stepped h
  rw [fbDirty_iff, executes_draw_iff]
  exact and_left_comm

/-- Settles O24: by the one word of the pattern; the new FB is 0 in every row, and only it and pc are written. -/
theorem clearScreenTurnsEveryPixelOff : Obligations.ClearScreenTurnsEveryPixelOff := by
  refine ⟨hasPattern_of_word rfl, fun s => ⟨_, rfl, fun px py => ?_, rfl, rfl, fun _ => rfl⟩⟩
  simp [State.pixel, pixelOf]

/-- Settles O26: no row is loaded, so no address is checked and no bit is drawn; what is left is the flag and pc. -/
theorem drawOfNoRowsClearsVf : Obligations.DrawOfNoRowsClearsVf := by
  intro s x y
  have hload : s.loadAtI (0 : Fin 16).val = .ok [] := rfl
  refine ⟨_, exec_drw_of_ok hload x y, rfl, drawn_reg_flag s x y [], rfl, rfl, fun z hz => ?others, fun _ => rfl⟩
  case others => exact drawn_reg_of_ne s x y [] (List.ne_of_not_mem_cons hz)

end Sys2Proof.Proofs
end

section
/-! Proofs of the family 45_timers_keys.md: the timer instructions (R250 to R252), the key skips (R253 to R255), and the
key wait, its entry (R256) and its step (R257). -/

namespace Sys2Proof.Proofs

open Machine Laws

/-! Words that match a pattern -/

theorem hasPattern_ldVxDt : HasPattern 0xF0FF 0xF007 (fun w => .ldVxDt (xOf w)) :=
  hasPattern_of_familyF 0x07#8 rfl rfl fun _ h => by simp only [decodeFamilyF, h]

theorem hasPattern_ldVxK : HasPattern 0xF0FF 0xF00A (fun w => .ldVxK (xOf w)) :=
  hasPattern_of_familyF 0x0A#8 rfl rfl fun _ h => by simp only [decodeFamilyF, h]

theorem hasPattern_ldDtVx : HasPattern 0xF0FF 0xF015 (fun w => .ldDtVx (xOf w)) :=
  hasPattern_of_familyF 0x15#8 rfl rfl fun _ h => by simp only [decodeFamilyF, h]

theorem hasPattern_ldStVx : HasPattern 0xF0FF 0xF018 (fun w => .ldStVx (xOf w)) :=
  hasPattern_of_familyF 0x18#8 rfl rfl fun _ h => by simp only [decodeFamilyF, h]

theorem decodeWord_of_familyE {w : Word} (h : familyOf w = 0xE#4) : decodeWord w = decodeFamilyE w := by
  simp only [decodeWord, h]

/-- R106: a row of family E is the arm of the low byte alone. -/
theorem hasPattern_of_familyE {p : Word} {f : Word → Instr} (kk : Byte) (hk : familyOf p = 0xE#4) (hkk : kkOf p = kk)
    (h : ∀ w, kkOf w = kk → decodeFamilyE w = .ok (f w)) : HasPattern 0xF0FF p f := by
  intro w hw
  have hfam : familyOf w = 0xE#4 := (familyOf_of_match hw (by decide)).trans hk
  have hlow : kkOf w = kk := (kkOf_of_match hw (by decide)).trans hkk
  rw [decodeWord_of_familyE hfam, h w hlow]

theorem hasPattern_skp : HasPattern 0xF0FF 0xE09E (fun w => .skp (xOf w)) :=
  hasPattern_of_familyE 0x9E#8 rfl rfl fun _ h => by simp only [decodeFamilyE, h]

theorem hasPattern_sknp : HasPattern 0xF0FF 0xE0A1 (fun w => .sknp (xOf w)) :=
  hasPattern_of_familyE 0xA1#8 rfl rfl fun _ h => by simp only [decodeFamilyE, h]

/-! The key index and the key skips (R253 to R255) -/

theorem keyIndex_of_key {s : State} {x : Reg} {key : Fin 16} (h : (s.reg x).toNat = key.val) :
    s.keyIndex x = some key := by
  have hlt : (s.reg x).toNat < 16 := h ▸ key.isLt
  rw [State.keyIndex, dif_pos hlt]
  exact congrArg some (Fin.ext h)

theorem keyIndex_of_above {s : State} {x : Reg} (h : 15 < (s.reg x).toNat) : s.keyIndex x = none :=
  dif_neg (by omega)

theorem exec_skp_of_key {s : State} {x : Reg} {key : Fin 16} (h : (s.reg x).toNat = key.val) :
    exec (.skp x) s = .next (s.skipIf (s.k.getLsbD key)) := by
  simp only [exec, execSkp, keyIndex_of_key h, State.keyDown]

theorem exec_sknp_of_key {s : State} {x : Reg} {key : Fin 16} (h : (s.reg x).toNat = key.val) :
    exec (.sknp x) s = .next (s.skipIf (!s.k.getLsbD key)) := by
  simp only [exec, execSknp, keyIndex_of_key h, State.keyDown]

/-- A raised key is KeyOutOfRange, code 5 (R280, R285). -/
theorem raiseKey_eq_raised (s : State) (x : Reg) : s.raiseKey x = Raised s 5 ((s.reg x).setWidth 32) := rfl

theorem exec_skp_of_above {s : State} {x : Reg} (h : 15 < (s.reg x).toNat) :
    exec (.skp x) s = .next (Raised s 5 ((s.reg x).setWidth 32)) := by
  simp only [exec, execSkp, keyIndex_of_above h, raiseKey_eq_raised]

theorem exec_sknp_of_above {s : State} {x : Reg} (h : 15 < (s.reg x).toNat) :
    exec (.sknp x) s = .next (Raised s 5 ((s.reg x).setWidth 32)) := by
  simp only [exec, execSknp, keyIndex_of_above h, raiseKey_eq_raised]

/-- SKNP: the skip on a key that is up. -/
theorem skipIf_not_pc (s : State) (c : Bool) : (s.skipIf (!c)).pc = if c = true then s.pc + 2 else s.pc + 4 := by
  cases c <;> exact skipIf_pc_eq s _

/-! What the command STEP answers (R302) -/

theorem command_step_of_step {s t : State} (h : step s = .next t) :
    command .step s = .next (t, .stepped t.status (fbDirty s t)) := by
  simp only [command, h]

theorem status_of_waiting {t : State} (he : t.errCode = 0) (hk : t.kwait = true) : t.status = .waiting := by
  simp only [State.status, he, hk, ne_eq, not_true_eq_false, if_false, if_true]

theorem status_of_running {t : State} (h : t.Running) : t.status = .ok := by
  obtain ⟨he, hk⟩ := h
  simp only [State.status, he, hk, ne_eq, not_true_eq_false, if_false, Bool.false_eq_true]

/-- R236: a wait step fetches nothing, so it commits no draw. -/
theorem fbDirty_of_waiting {s : State} (hk : s.kwait = true) (t : State) : fbDirty s t = false := by
  refine Bool.eq_false_of_not_eq_true fun hd => ?_
  obtain ⟨⟨-, hk'⟩, -⟩ := (fbDirty_iff s t).mp hd
  exact Bool.false_ne_true (hk'.symm.trans hk)

theorem fbDirty_of_not_draws {s : State} {w : Word} (hf : s.fetchWord = .ok w) (hw : drawsWord w = false) (t : State) :
    fbDirty s t = false := by
  simp only [fbDirty, hf, hw, Bool.and_false]

/-! The wait step (R257) -/

/-- R111: with no error and a key awaited, STEP is the wait step. -/
theorem step_of_waiting {s : State} (he : s.errCode = 0) (hk : s.kwait = true) : step s = .next s.waitStep := by
  simp only [step, stepCycle, he, hk, ne_eq, not_true_eq_false, if_false, if_true]

/-- STEP of a waiting block: the wait step, and its status. -/
theorem command_step_of_waiting {s : State} (he : s.errCode = 0) (hk : s.kwait = true) :
    command .step s = .next (s.waitStep, .stepped s.waitStep.status false) := by
  rw [command_step_of_step (step_of_waiting he hk), fbDirty_of_waiting hk]

theorem waitStep_of_no_newKey {s : State} (h : ∀ j, ¬ s.NewKey j) : s.waitStep = { s with kprev := s.k } := by
  rcases waitStep_cases s with ⟨-, hw⟩ | ⟨key, hnew, -⟩
  · exact hw
  · exact absurd hnew (h key)

/-- There is one lowest new key. -/
theorem lowest_newKey_unique {s : State} {key key' : Fin 16}
    (hnew : s.NewKey key) (hlow : ∀ j, j < key → ¬ s.NewKey j)
    (hnew' : s.NewKey key') (hlow' : ∀ j, j < key' → ¬ s.NewKey j) : key' = key :=
  le_antisymm (not_lt.mp fun hlt => hlow' key hlt hnew) (not_lt.mp fun hlt => hlow key' hlt hnew')

theorem waitStep_of_lowest_newKey {s : State} {key : Fin 16} (hnew : s.NewKey key)
    (hlow : ∀ j, j < key → ¬ s.NewKey j) :
    s.waitStep = { s with kprev := s.k, kwait := false }.finish s.kwaitX (BitVec.ofNat 8 key.val) := by
  rcases waitStep_cases s with ⟨hnone, -⟩ | ⟨key', hnew', hlow', hw⟩
  · exact absurd hnew (hnone key)
  · rw [hw, lowest_newKey_unique hnew hlow hnew' hlow']
    rfl

theorem key_toNat (key : Fin 16) : (BitVec.ofNat 8 key.val).toNat = key.val := Nat.mod_eq_of_lt (by omega)

/-- With no new key a waiting block keeps waiting and takes the snapshot. -/
theorem command_step_of_no_newKey {s : State} (he : s.errCode = 0) (hk : s.kwait = true) (h : ∀ j, ¬ s.NewKey j) :
    command .step s = .next ({ s with kprev := s.k }, .stepped .waiting false) := by
  have hstatus : { s with kprev := s.k }.status = .waiting := status_of_waiting he hk
  rw [command_step_of_waiting he hk, waitStep_of_no_newKey h, hstatus]

/-! The entry of the wait (R256) -/

/-- The state the entry of Fx0A leaves (R256): the wait is armed with x and a snapshot of the keypad. -/
def armed (s : State) (x : Reg) : State := { s with kwait := true, kwaitX := x, kprev := s.k }

theorem exec_ldVxK (s : State) (x : Reg) : exec (.ldVxK x) s = .next (armed s x) := rfl

/-- A key that is down is in the snapshot, so none is new. -/
theorem not_newKey_of_kprev_eq {t : State} (h : t.kprev = t.k) (j : Fin 16) : ¬ t.NewKey j := by
  rintro ⟨hdown, hup⟩
  rw [h, hdown] at hup
  exact absurd hup.symm Bool.false_ne_true

/-- A waiting block whose snapshot is the keypad stays as it is. -/
theorem command_step_of_waiting_kprev {t : State} (he : t.errCode = 0) (hk : t.kwait = true) (h : t.kprev = t.k) :
    command .step t = .next (t, .stepped .waiting false) := by
  have hsame : { t with kprev := t.k } = t := congrArg (fun snapshot => { t with kprev := snapshot }) h.symm
  rw [command_step_of_no_newKey he hk (not_newKey_of_kprev_eq h), hsame]

/-- The STEP of an Fx0A: the wait is armed and IR holds the word. -/
theorem command_step_of_ldVxK {s : State} {w : Word} {x : Reg} (hr : s.Running) (hf : s.fetchWord = .ok w)
    (hd : decodeWord w = .ok (.ldVxK x)) :
    command .step s = .next (armed { s with ir := w } x, .stepped .waiting false) := by
  have he : (armed s x).errCode = 0 := hr.left
  have hstep : step s = .next (armed { s with ir := w } x) := by
    rw [step_of_decoded hr hf hd, exec_ldVxK, commitIr, if_pos he]
    rfl
  have hstatus : (armed { s with ir := w } x).status = .waiting := status_of_waiting he rfl
  have hdraws : drawsWord w = false := by simp only [drawsWord, hd]
  rw [command_step_of_step hstep, hstatus, fbDirty_of_not_draws hf hdraws]

/-! The statements -/

/-- Settles O7: by the two cases of the wait step; the register write and the move of pc are those of a load. -/
theorem waitStepTakesLowestNewKey : Obligations.WaitStepTakesLowestNewKey := by
  refine fun s he hk => ⟨command_step_of_no_newKey he hk, fun key hnew hlow => ?_⟩
  have hw := waitStep_of_lowest_newKey hnew hlow
  have hrun : s.waitStep.Running := by
    rw [hw]
    exact ⟨he, rfl⟩
  have hcmd := command_step_of_waiting he hk
  rw [status_of_running hrun, hw] at hcmd
  refine ⟨_, hcmd, ?taken, rfl, rfl, rfl, fun y hy => ?others, rfl, fun _ => rfl⟩
  case taken => rw [finish_reg_self, key_toNat]
  case others => exact finish_reg_of_ne _ _ hy

/-- Settles O36: a value below 16 is a key and the skip rule tests it; above, both instructions raise it. -/
theorem keySkipsTestTheKeypad : Obligations.KeySkipsTestTheKeypad := by
  refine ⟨hasPattern_skp, hasPattern_sknp, fun s x => ⟨fun key hkey => ⟨?skp, ?sknp⟩, fun habove => ?above⟩⟩
  case skp => exact ⟨_, exec_skp_of_key hkey, skipIf_pc_eq s _, onlyPc_skipIf s _⟩
  case sknp => exact ⟨_, exec_sknp_of_key hkey, skipIf_not_pc s _, onlyPc_skipIf s _⟩
  case above => exact ⟨exec_skp_of_above habove, exec_sknp_of_above habove⟩

/-- Settles O50: Fx07 is a load of DT; Fx15 and Fx18 write their timer and pc. -/
theorem timerInstructionsMoveBytes : Obligations.TimerInstructionsMoveBytes := by
  refine ⟨hasPattern_ldVxDt, hasPattern_ldDtVx, hasPattern_ldStVx, fun s x => ⟨?ldVxDt, ?ldDtVx, ?ldStVx⟩⟩
  case ldVxDt => exact ⟨s.finish x s.dt, rfl, finish_reg_self s x s.dt, rfl, onlyRegs_finish s x s.dt⟩
  case ldDtVx => exact ⟨_, rfl, rfl, rfl, rfl, fun _ => rfl⟩
  case ldStVx => exact ⟨_, rfl, rfl, rfl, rfl, fun _ => rfl, decide_eq_true_iff⟩

/-- Settles O51: the entry's snapshot is the keypad itself, so no key is new at the next STEP. -/
theorem keyWaitEntryArmsTheWait : Obligations.KeyWaitEntryArmsTheWait := by
  refine ⟨hasPattern_ldVxK, fun s x => ⟨⟨_, exec_ldVxK s x, rfl, rfl, rfl, rfl, fun _ => rfl⟩, ?_⟩⟩
  rintro ⟨hr, w, hf, hd⟩
  exact ⟨_, command_step_of_ldVxK hr hf hd, rfl, command_step_of_waiting_kprev hr.left rfl rfl⟩

end Sys2Proof.Proofs
end

section
/-! Proofs of the family 60_exceptions.md: the errors (R288 to R290), the timers (R295, R296) and what the host's commands
answer (R302, R304, R306, R314). -/

namespace Sys2Proof.Proofs

open Machine Laws

/-! The status of a step (R302) -/

theorem status_of_error {t : State} (h : t.errCode ≠ 0) : t.status = .error t.errCode t.errPc t.errInfo := if_pos h

/-- A status other than ERROR is read from a state with no error. -/
theorem errCode_of_status {t : State} (h : t.status = .ok ∨ t.status = .waiting) : t.errCode = 0 := by
  by_contra he
  rw [status_of_error he] at h
  rcases h with h | h <;> cases h

theorem status_eq_error_iff (t : State) : t.status = .error t.errCode t.errPc t.errInfo ↔ t.errCode ≠ 0 := by
  refine ⟨fun h he => ?_, status_of_error⟩
  cases hk : t.kwait with
  | true => exact nomatch (status_of_waiting he hk).symm.trans h
  | false => exact nomatch (status_of_running ⟨he, hk⟩).symm.trans h

/-! A latched error and a raised one (R288 to R290) -/

/-- R290: with an error latched, STEP is the identity. -/
theorem step_of_latched {s : State} (h : s.errCode ≠ 0) : step s = .next s := if_pos h

/-- R236: a step with an error latched after it commits no draw. -/
theorem fbDirty_of_error (s : State) {t : State} (h : t.errCode ≠ 0) : fbDirty s t = false := by
  refine Bool.eq_false_of_not_eq_true fun hd => ?_
  obtain ⟨-, he, -⟩ := (fbDirty_iff s t).mp hd
  exact h he

/-- STEP with an error latched after it returns that record. -/
theorem command_step_of_error {s t : State} (h : step s = .next t) (he : t.errCode ≠ 0) :
    command .step s = .next (t, .stepped (.error t.errCode t.errPc t.errInfo) false) := by
  rw [command_step_of_step h, status_of_error he, fbDirty_of_error s he]

/-- R258: a wait step cannot raise. -/
theorem waitStep_errCode (s : State) : s.waitStep.errCode = s.errCode := by
  rcases waitStep_cases s with ⟨-, hw⟩ | ⟨_, -, -, hw⟩ <;> exact (congrArg State.errCode hw).trans rfl

/-- R288 and R289: a step latches an error only by a raise from the state before it. -/
theorem step_eq_raise {s t : State} (hs : s.errCode = 0) (h : step s = .next t) (ht : t.errCode ≠ 0) :
    ∃ kind info, t = s.raise kind info := by
  rcases step_cases s with ⟨he, -⟩ | ⟨-, -, hw⟩ | ⟨-, a, -, hbad⟩ | ⟨-, w, e, -, -, hunk⟩ | ⟨-, w, i, -, -, hex⟩
  · exact absurd hs he
  · cases h.symm.trans hw
    exact absurd ((waitStep_errCode s).trans hs) ht
  · cases h.symm.trans hbad
    exact ⟨_, _, rfl⟩
  · cases h.symm.trans hunk
    exact ⟨_, _, rfl⟩
  · rcases exec_cases i s with ⟨kind, info, hraise⟩ | ⟨u, hu, hcode, -⟩
    · rw [hraise, commitIr_raise] at hex
      cases h.symm.trans hex
      exact ⟨kind, info, rfl⟩
    · obtain ⟨u', hu', hcode'⟩ := commitIr_next_errCode w u
      rw [hu, hu'] at hex
      cases h.symm.trans hex
      exact absurd (hcode'.trans (hcode.trans hs)) ht

/-! What a step did, in the words of R302 -/

/-- The next STEP executes an Fx0A, or is a wait step that sees no new key. -/
def Waits (s : State) : Prop :=
  (∃ x, s.Executes (.ldVxK x)) ∨ (s.errCode = 0 ∧ s.kwait = true ∧ ∀ j, ¬ s.NewKey j)

/-- The pending Fx0A has its new key, or the next STEP executes another instruction. -/
def Proceeds (s : State) : Prop :=
  (s.kwait = true ∧ ∃ j, s.NewKey j) ∨ ∃ i, s.Executes i ∧ ∀ x, i ≠ .ldVxK x

/-- Every step latches an error or leaves one, waits, or proceeds. -/
theorem step_error_or_waits_or_proceeds {s t : State} (h : step s = .next t) :
    t.errCode ≠ 0 ∨ Waits s ∨ Proceeds s := by
  rcases step_cases s with ⟨he, hs⟩ | ⟨he, hk, -⟩ | ⟨-, a, -, hbad⟩ | ⟨-, w, e, -, -, hunk⟩ | ⟨hr, w, i, hf, hd, -⟩
  · cases h.symm.trans hs
    exact .inl he
  · by_cases hnew : ∃ j, s.NewKey j
    · exact .inr (.inr (.inl ⟨hk, hnew⟩))
    · exact .inr (.inl (.inr ⟨he, hk, not_exists.mp hnew⟩))
  · cases h.symm.trans hbad
    exact .inl (errorCodeOf_ne_zero .addressOutOfRange)
  · cases h.symm.trans hunk
    exact .inl (errorCodeOf_ne_zero .unknownOpcode)
  · have hexec : s.Executes i := ⟨hr, w, hf, hd⟩
    by_cases hi : ∃ x, i = .ldVxK x
    · obtain ⟨x, rfl⟩ := hi
      exact .inr (.inl (.inl ⟨x, hexec⟩))
    · exact .inr (.inr (.inr ⟨i, hexec, not_exists.mp hi⟩))

/-- A step that waits returns WAITING (R256, R257). -/
theorem Waits.status {s t : State} (hw : Waits s) (h : step s = .next t) : t.status = .waiting := by
  have hcmd : ∃ u, command .step s = .next (u, .stepped .waiting false) := by
    rcases hw with ⟨x, hr, w, hf, hd⟩ | ⟨he, hk, hnone⟩
    · exact ⟨_, command_step_of_ldVxK hr hf hd⟩
    · exact ⟨_, command_step_of_no_newKey he hk hnone⟩
  obtain ⟨u, hu⟩ := hcmd
  obtain ⟨hstep, hstatus, -⟩ := command_step_stepped hu
  cases h.symm.trans hstep
  exact hstatus.symm

/-- R46: of the instructions, only Fx0A writes KWAIT. -/
theorem exec_kwait {i : Instr} (hi : ∀ x, i ≠ .ldVxK x) (s : State) : ∃ t, exec i s = .next t ∧ t.kwait = s.kwait := by
  cases i with
  | ldVxK x => exact absurd rfl (hi x)
  | ret =>
    simp only [exec, execRet]
    rcases pop_cases s with ⟨h, _⟩ | ⟨_, h⟩ <;> rw [h] <;> exact ⟨_, rfl, rfl⟩
  | call nnn =>
    simp only [exec, execCall]
    rcases push_cases s s.next with ⟨h, _⟩ | ⟨_, h⟩ <;> rw [h] <;> exact ⟨_, rfl, rfl⟩
  | drw x y n =>
    simp only [exec, execDrw]
    cases s.loadAtI n.val <;> exact ⟨_, rfl, rfl⟩
  | skp x =>
    simp only [exec, execSkp]
    cases s.keyIndex x <;> exact ⟨_, rfl, rfl⟩
  | sknp x =>
    simp only [exec, execSknp]
    cases s.keyIndex x <;> exact ⟨_, rfl, rfl⟩
  | addI x =>
    simp only [exec, execAddI]
    split <;> exact ⟨_, rfl, rfl⟩
  | ldB x =>
    simp only [exec, execLdB]
    rcases storeAndAdvance_cases s (bcdDigits (s.reg x)) with ⟨m, -, h⟩ | ⟨a, -, h⟩ <;> rw [h] <;> exact ⟨_, rfl, rfl⟩
  | ldMemVx x =>
    simp only [exec, execLdMemVx]
    rcases storeAndAdvance_cases s (s.regsUpTo x) with ⟨m, -, h⟩ | ⟨a, -, h⟩ <;> rw [h] <;> exact ⟨_, rfl, rfl⟩
  | ldVxMem x =>
    simp only [exec, execLdVxMem]
    cases s.loadAtI (x.val + 1) <;> exact ⟨_, rfl, rfl⟩
  | _ => exact ⟨_, rfl, rfl⟩

/-- The IR write keeps KWAIT. -/
theorem commitIr_next_kwait {w : Word} {t u : State} (h : commitIr w (.next t) = .next u) : u.kwait = t.kwait := by
  cases h
  split <;> rfl

/-- The step of an instruction other than Fx0A leaves no wait pending. -/
theorem step_kwait_of_executes {s t : State} {i : Instr} (hexec : s.Executes i) (hi : ∀ x, i ≠ .ldVxK x)
    (h : step s = .next t) : t.kwait = false := by
  obtain ⟨hr, w, hf, hd⟩ := hexec
  obtain ⟨u, hu, hkeep⟩ := exec_kwait hi s
  rw [step_of_decoded hr hf hd, hu] at h
  rw [commitIr_next_kwait h, hkeep, hr.right]

/-- R257: the wait step ends the wait as soon as some key is new. -/
theorem waitStep_kwait_of_newKey {s : State} {j : Fin 16} (h : s.NewKey j) : s.waitStep.kwait = false := by
  rcases waitStep_cases s with ⟨hnone, -⟩ | ⟨key, -, -, hw⟩
  · exact absurd h (hnone j)
  · exact (congrArg State.kwait hw).trans rfl

/-- A step that proceeds returns OK where it latches no error. -/
theorem Proceeds.status {s t : State} (hp : Proceeds s) (h : step s = .next t) (he : t.errCode = 0) :
    t.status = .ok := by
  refine status_of_running ⟨he, ?_⟩
  rcases hp with ⟨hk, j, hnew⟩ | ⟨i, hexec, hi⟩
  · have hs : s.errCode = 0 := by
      by_contra hs
      cases h.symm.trans (step_of_latched hs)
      exact hs he
    cases h.symm.trans (step_of_waiting hs hk)
    exact waitStep_kwait_of_newKey hnew
  · exact step_kwait_of_executes hexec hi h

/-! The timers (R295) -/

theorem tickDown_toNat (b : Byte) : (tickDown b).toNat = b.toNat - 1 := by
  unfold tickDown
  split
  next h => rw [h]; rfl
  next h =>
    have hpos : b.toNat ≠ 0 := fun h0 => h (BitVec.eq_of_toNat_eq h0)
    have hlt := b.isLt
    have hone : (1 : Byte).toNat = 1 := rfl
    rw [byte_sub_toNat]
    omega

/-! SET_KEY and SKIP -/

theorem command_setKey_of_key (s : State) {key : Nat} (h : key < 16) (pressed : Bool) :
    command (.setKey key pressed) s = .next (s.putKey key pressed, .ok) := if_pos h

theorem command_setKey_of_bad (s : State) {key : Nat} (h : ¬ key < 16) (pressed : Bool) :
    command (.setKey key pressed) s = .next (s, .badKey) := if_neg h

/-- R304: what each key reads after SET_KEY. -/
theorem putKey_k_getLsbD (s : State) (key j : Fin 16) (pressed : Bool) :
    (s.putKey key.val pressed).k.getLsbD j = if j = key then pressed else s.k.getLsbD j := by
  have hj := j.isLt
  rw [putKey_k]
  by_cases h : j = key
  · subst h
    cases pressed <;> simp [hj]
  · have hval : j.val ≠ key.val := fun hv => h (Fin.ext hv)
    cases pressed <;> simp [h, hval]

theorem command_skip_of_error {s : State} (h : s.errCode ≠ 0) : command .skip s = .next (s.clearError, .ok) := if_neg h

theorem command_skip_of_no_error {s : State} (h : s.errCode = 0) : command .skip s = .next (s, .nothingToSkip) :=
  if_pos h

/-! The host's inputs while an error is latched (R290) -/

/-- s with its error record emptied, and nothing else. -/
def withoutError (s : State) : State := { s with errCode := 0, errPc := 0, errInfo := 0 }

/-- t with the error record of s. -/
def withErrorOf (s t : State) : State := { t with errCode := s.errCode, errPc := s.errPc, errInfo := s.errInfo }

/-- The command does on s what it does on s without its error record, and leaves the record. -/
def IgnoresError (c : Command) (s : State) : Prop :=
  ∃ t r, command c (withoutError s) = .next (t, r) ∧ command c s = .next (withErrorOf s t, r)

theorem tick_ignoresError (s : State) : IgnoresError .tick s := ⟨_, _, rfl, rfl⟩

theorem setKey_ignoresError (s : State) (key : Nat) (pressed : Bool) : IgnoresError (.setKey key pressed) s := by
  by_cases h : key < 16
  · exact ⟨_, _, command_setKey_of_key _ h pressed, command_setKey_of_key s h pressed⟩
  · exact ⟨_, _, command_setKey_of_bad _ h pressed, command_setKey_of_bad s h pressed⟩

theorem loadRom_ignoresError (s : State) (rom : List Byte) : IgnoresError (.loadRom rom) s := by
  rcases Nat.lt_or_ge 4096 (0x200 + rom.length) with h | h
  · exact ⟨_, _, command_loadRom_of_overflow _ h, command_loadRom_of_overflow s h⟩
  · exact ⟨_, _, command_loadRom_of_fits _ h, command_loadRom_of_fits s h⟩

/-! OBSERVE (R306) -/

theorem observe_sp_toNat (s : State) : s.observe.sp.toNat = s.sp.val := by
  have hsp := s.sp.isLt
  exact Nat.mod_eq_of_lt (by omega)

theorem observe_mem_length (s : State) : s.observe.mem.length = 4096 := by
  simp only [State.observe, List.length_map, List.length_range]

theorem observe_mem_getElem? (s : State) {a : Nat} (h : a < 4096) : s.observe.mem[a]? = some (s.byteAt a) := by
  simp only [State.observe, List.getElem?_map, List.getElem?_range h, Option.map_some]

/-! The statements -/

/-- Settles O10: a step latches an error only by a raise from the state before it. -/
theorem errorsArePrecise : Obligations.ErrorsArePrecise := by
  intro s t hs hstep ht
  obtain ⟨kind, info, rfl⟩ := step_eq_raise hs hstep ht
  exact ⟨rfl, command_step_of_error hstep ht⟩

/-- Settles O53: by induction on the number of TICKs, the first of them taken off the front of the list. -/
theorem ticksCountDownToZero : Obligations.TicksCountDownToZero := by
  intro n
  induction n with
  | zero => exact fun s => ⟨s, rfl, rfl, rfl, rfl⟩
  | succ n ih =>
    intro s
    obtain ⟨t, hrun, hdt, hst, hframe⟩ := ih s.tick
    rw [tick_dt, tickDown_toNat] at hdt
    rw [tick_st, tickDown_toNat] at hst
    exact ⟨t, hrun, by omega, by omega, hframe⟩

/-- Settles O60: every step ends in an error, waits or proceeds; the last two fix the status where no error is latched. -/
theorem stepStatusTellsWhatHappened : Obligations.StepStatusTellsWhatHappened := by
  intro s t st d h
  obtain ⟨hstep, rfl, -⟩ := command_step_stepped h
  have hcases := step_error_or_waits_or_proceeds hstep
  refine ⟨⟨fun hst => ?waits, fun hw => Waits.status hw hstep⟩, status_eq_error_iff t,
    ⟨fun hst => ?proceeds, fun ⟨he, hp⟩ => Proceeds.status hp hstep he⟩⟩
  case waits =>
    have he := errCode_of_status (.inr hst)
    rcases hcases with herr | hw | hp
    · exact absurd he herr
    · exact hw
    · exact nomatch hst.symm.trans (hp.status hstep he)
  case proceeds =>
    have he := errCode_of_status (.inl hst)
    rcases hcases with herr | hw | hp
    · exact absurd he herr
    · exact nomatch hst.symm.trans (hw.status hstep)
    · exact ⟨he, hp⟩

/-- Settles O6: STEP stops at the latched error, TICK, SET_KEY and LOAD_ROM never look at it, RESET and SKIP clear it. -/
theorem latchedErrorIsSticky : Obligations.LatchedErrorIsSticky := by
  intro s hs
  refine ⟨command_step_of_error (step_of_latched hs) hs, ?inputs, rfl, fun seed => ⟨_, rfl, rfl, rfl, rfl⟩,
    _, command_skip_of_error hs, rfl, rfl, rfl⟩
  rintro c (rfl | ⟨key, pressed, rfl⟩ | ⟨rom, rfl⟩)
  · exact tick_ignoresError s
  · exact setKey_ignoresError s key pressed
  · exact loadRom_ignoresError s rom

/-- Settles O52: by what the decrement is on each timer. -/
theorem tickDecrementsBothTimers : Obligations.TickDecrementsBothTimers :=
  fun s => ⟨s.tick, rfl, tickDown_toNat s.dt, tickDown_toNat s.st, rfl, fun _ => rfl⟩

/-- Settles O54: by what each key reads after the write. -/
theorem setKeyWritesOneKey : Obligations.SetKeyWritesOneKey := by
  refine fun s pressed => ⟨fun key => ⟨_, command_setKey_of_key s key.isLt pressed, ?written, fun j hj => ?others, rfl,
    fun _ => rfl⟩, fun key hkey => command_setKey_of_bad s (by omega) pressed⟩
  case written => rw [putKey_k_getLsbD, if_pos rfl]
  case others => rw [putKey_k_getLsbD, if_neg hj]

/-- Settles O56: by the two cases of SKIP. -/
theorem skipClearsTheError : Obligations.SkipClearsTheError := fun _ =>
  ⟨command_skip_of_no_error, fun h => ⟨_, command_skip_of_error h, rfl, rfl, rfl, rfl, rfl, fun _ => rfl⟩⟩

/-- Settles O58: the view copies each field; SP fits its 5 bits, and the list of memory has the byte of each address. -/
theorem observeReturnsTheWholeState : Obligations.ObserveReturnsTheWholeState := by
  intro s
  exact ⟨s.observe, rfl, rfl, rfl, rfl, observe_sp_toNat s, rfl, rfl, rfl, observe_mem_length s,
    fun _ => observe_mem_getElem? s, rfl, rfl, rfl, rfl, rfl, rfl, rfl, rfl, rfl, decide_eq_true_iff⟩

end Sys2Proof.Proofs
end

section
/-! Proofs of the family 70_reset_and_hazards.md: the state RESET leaves (R320) and its memory (R321). -/

namespace Sys2Proof.Proofs

open Machine Laws

/-! What an unlisted address reads as -/

/-- R321: byte j of the font range reads as FONT_DATA[j]. -/
theorem unlisted_font (c : Config) (j : Fin 80) : Memory.unlisted c (c.fontBase.toNat + j.val) = c.fontData[j] := by
  have hj : j.val < c.fontData.toList.length := by rw [Vector.length_toList]; exact j.isLt
  rw [Memory.unlisted, if_pos (Nat.le_add_right _ _), Nat.add_sub_cancel_left, List.getD_eq_getElem _ _ hj,
    Vector.getElem_toList, Fin.getElem_fin]

/-- R320: an address on either side of the font range reads as 0. -/
theorem unlisted_outside_font (c : Config) {a : Nat} (ha : a < c.fontBase.toNat ∨ c.fontBase.toNat + 80 ≤ a) :
    Memory.unlisted c a = 0 := by
  rcases ha with hbelow | habove
  · exact if_neg (Nat.not_le.mpr hbelow)
  · have hend : c.fontData.toList.length ≤ a - c.fontBase.toNat := by rw [Vector.length_toList]; omega
    rw [Memory.unlisted, if_pos (by omega), List.getD_eq_default _ _ hend]

/-! The state after RESET -/

/-- RESET drops every write to memory, a loaded ROM among them, so every address reads as unlisted (R320). -/
theorem resetWith_byteAt (c : Config) (seed a : Nat) : (State.resetWith c seed).byteAt a = Memory.unlisted c a := rfl

theorem resetWith_reg (c : Config) (seed : Nat) (x : Reg) : (State.resetWith c seed).reg x = 0 :=
  Vector.getElem_replicate x.isLt

theorem resetWith_stack (c : Config) (seed : Nat) (j : Fin 16) : (State.resetWith c seed).stack[j] = 0 :=
  Vector.getElem_replicate j.isLt

theorem resetWith_pixel (c : Config) (seed : Nat) (px : Fin 64) (py : Fin 32) :
    (State.resetWith c seed).pixel px py = false := by
  have hrow : (State.resetWith c seed).fb[py] = 0 := Vector.getElem_replicate py.isLt
  rw [State.pixel, pixelOf, hrow]
  exact BitVec.getLsbD_zero

/-- Settles O57: the array fields are 0 at each index, the memory lists nothing, and each other field is written as it is
stated. -/
theorem resetLeavesTheListedValues : Obligations.ResetLeavesTheListedValues := by
  intro s seed
  refine ⟨State.resetWith s.cfg seed, rfl, resetWith_reg s.cfg seed, rfl, rfl, resetWith_stack s.cfg seed, rfl, rfl, rfl,
    resetWith_pixel s.cfg seed, rfl, rfl, rfl, rfl, rfl, rfl, rfl, rfl, rfl, rfl, fun j => ?font, fun a ha => ?outside⟩
  case font => rw [resetWith_byteAt, unlisted_font]
  case outside => rw [resetWith_byteAt, unlisted_outside_font s.cfg ha]

end Sys2Proof.Proofs
end

section
/-! Proofs on the decoder and the encoder as a whole (30_encoding.md sections 1 to 3): each undoes the other. -/

namespace Sys2Proof.Proofs

open Machine Laws

/-! Decoding an encoded instruction -/

/-- R104, R110: the word of a well-formed SYS is neither 00E0 nor 00EE. -/
theorem decodeWord_encode_sys {nnn : Addr} (hwf : (Instr.sys nnn).wf = true) :
    decodeWord (encode (.sys nnn)) = .ok (.sys nnn) := by
  have hnnn : nnnOf (encode (.sys nnn)) = nnn := nnnOf_packNnn 0x0 nnn
  have hfam : familyOf (encode (.sys nnn)) = 0x0#4 := familyOf_packNnn 0x0 nnn
  obtain ⟨hcls, hret⟩ : nnn ≠ 0x0E0#12 ∧ nnn ≠ 0x0EE#12 := by simpa [Instr.wf, sysOperandWf] using hwf
  have hsys : decodeFamily0 (encode (.sys nnn)) = .sys (nnnOf (encode (.sys nnn))) :=
    decodeFamily0_of_sys (fun h => hcls (hnnn.symm.trans (congrArg nnnOf (BitVec.eq_of_toNat_eq (y := 0x00E0#16) h))))
      (fun h => hret (hnnn.symm.trans (congrArg nnnOf (BitVec.eq_of_toNat_eq (y := 0x00EE#16) h))))
  rw [decodeWord_of_family0 hfam, hsys, hnnn]

/-- Settles O1: each word is of its instruction's family, and there the decoder reads the fields the encoder packs. -/
theorem decodeInvertsEncode : Obligations.DecodeInvertsEncode := by
  intro i hwf
  cases i with
  | cls => rfl
  | ret => rfl
  | sys nnn => exact decodeWord_encode_sys hwf
  | jp nnn => exact (decodeWord_of_family1 (familyOf_packNnn _ _)).trans (by simp)
  | call nnn => exact (decodeWord_of_family2 (familyOf_packNnn _ _)).trans (by simp)
  | seImm x kk => exact (decodeWord_of_family3 (familyOf_packXkk _ _ _)).trans (by simp)
  | sneImm x kk => exact (decodeWord_of_family4 (familyOf_packXkk _ _ _)).trans (by simp)
  | seReg x y => exact (decodeWord_of_family5 (familyOf_packXyn _ _ _ _)).trans (by simp [decodeNeedsZero])
  | ldImm x kk => exact (decodeWord_of_family6 (familyOf_packXkk _ _ _)).trans (by simp)
  | addImm x kk => exact (decodeWord_of_family7 (familyOf_packXkk _ _ _)).trans (by simp)
  | ldReg x y | orReg x y | andReg x y | xorReg x y | addReg x y | sub x y | shr x y | subn x y | shl x y =>
    exact (decodeWord_of_family8 (familyOf_packXyn _ _ _ _)).trans (by simp [decodeFamily8])
  | sneReg x y => exact (decodeWord_of_family9 (familyOf_packXyn _ _ _ _)).trans (by simp [decodeNeedsZero])
  | ldI nnn => exact (decodeWord_of_familyA (familyOf_packNnn _ _)).trans (by simp)
  | jpV0 nnn => exact (decodeWord_of_familyB (familyOf_packNnn _ _)).trans (by simp)
  | rnd x kk => exact (decodeWord_of_familyC (familyOf_packXkk _ _ _)).trans (by simp)
  | drw x y n => exact (decodeWord_of_familyD (familyOf_packXyn _ _ _ _)).trans (by simp)
  | skp x | sknp x => exact (decodeWord_of_familyE (familyOf_packXkk _ _ _)).trans (by simp [decodeFamilyE])
  | ldVxDt x | ldVxK x | ldDtVx x | ldStVx x | addI x | ldF x | ldB x | ldMemVx x | ldVxMem x =>
    exact (decodeWord_of_familyF (familyOf_packXkk _ _ _)).trans (by simp [decodeFamilyF])

/-! Encoding a decoded word -/

/-- w is the word of the well-formed instruction i. -/
def IsWordOf (w : Word) (i : Instr) : Prop := encode i = w ∧ i.wf = true

theorem packNnn_of_family {w : Word} {k : BitVec 4} (h : familyOf w = k) : packNnn k (nnnOf w) = w := by
  rw [← h, packNnn_fields]

theorem packXkk_of_family {w : Word} {k : BitVec 4} (h : familyOf w = k) : packXkk k (xOf w) (kkOf w) = w := by
  rw [← h, packXkk_fields]

theorem packXyn_of_family {w : Word} {k : BitVec 4} (h : familyOf w = k) :
    packXyn k (xOf w) (yOf w) (selectorOf w) = w := by
  rw [← h, packXyn_fields]

/-- R102: the row count of Dxyn and the selector are the same four bits. -/
theorem regBits_nOf (w : Word) : regBits (nOf w) = selectorOf w := rfl

theorem packXkk_of_selected {w : Word} {k : BitVec 4} {kk : Byte} (h : familyOf w = k) (hkk : kkOf w = kk) :
    packXkk k (xOf w) kk = w := by
  rw [← hkk, packXkk_of_family h]

theorem packXyn_of_selected {w : Word} {k n : BitVec 4} (h : familyOf w = k) (hn : selectorOf w = n) :
    packXyn k (xOf w) (yOf w) n = w := by
  rw [← hn, packXyn_of_family h]

/-- R104: SYS is read only where the word is neither 00E0 nor 00EE, so its operand is well-formed. -/
theorem decodeFamily0_isWordOf {w : Word} (h : familyOf w = 0x0#4) : IsWordOf w (decodeFamily0 w) := by
  have hpack : packNnn 0x0 (nnnOf w) = w := packNnn_of_family h
  unfold decodeFamily0
  split
  next hcls => exact ⟨hcls.symm, rfl⟩
  next hcls =>
    split
    next hret => exact ⟨hret.symm, rfl⟩
    next hret =>
      have hcls' : nnnOf w ≠ 0x0E0#12 := fun hn => hcls (by rw [← hpack, hn]; rfl)
      have hret' : nnnOf w ≠ 0x0EE#12 := fun hn => hret (by rw [← hpack, hn]; rfl)
      exact ⟨hpack, by simp [Instr.wf, sysOperandWf, hcls', hret']⟩

/-- R103: families 5 and 9 answer only where the last nibble is the 0 the encoder writes. -/
theorem decodeNeedsZero_ok {w : Word} {i j : Instr} (h : decodeNeedsZero w i = .ok j) :
    selectorOf w = 0x0#4 ∧ i = j := by
  by_cases hsel : selectorOf w = 0x0#4
  · rw [decodeNeedsZero_of_zero hsel] at h
    exact ⟨hsel, Except.ok.inj h⟩
  · rw [decodeNeedsZero_of_ne_zero hsel] at h
    cases h

/-- R105: each arm of family 8 names the last nibble that the encoder writes. -/
theorem decodeFamily8_isWordOf {w : Word} {i : Instr} (hfam : familyOf w = 0x8#4) (h : decodeFamily8 w = .ok i) :
    IsWordOf w i := by
  unfold decodeFamily8 at h
  split at h
  case h_10 => cases h
  all_goals
    next hsel =>
      cases h
      exact ⟨packXyn_of_selected hfam hsel, rfl⟩

/-- R106: the same for the low byte of family E. -/
theorem decodeFamilyE_isWordOf {w : Word} {i : Instr} (hfam : familyOf w = 0xE#4) (h : decodeFamilyE w = .ok i) :
    IsWordOf w i := by
  unfold decodeFamilyE at h
  split at h
  case h_3 => cases h
  all_goals
    next hkk =>
      cases h
      exact ⟨packXkk_of_selected hfam hkk, rfl⟩

/-- R107: and for the low byte of family F. -/
theorem decodeFamilyF_isWordOf {w : Word} {i : Instr} (hfam : familyOf w = 0xF#4) (h : decodeFamilyF w = .ok i) :
    IsWordOf w i := by
  unfold decodeFamilyF at h
  split at h
  case h_10 => cases h
  all_goals
    next hkk =>
      cases h
      exact ⟨packXkk_of_selected hfam hkk, rfl⟩

/-- R103: the sixteen families. -/
theorem familyOf_cases (w : Word) :
    familyOf w = 0x0#4 ∨ familyOf w = 0x1#4 ∨ familyOf w = 0x2#4 ∨ familyOf w = 0x3#4 ∨ familyOf w = 0x4#4 ∨
    familyOf w = 0x5#4 ∨ familyOf w = 0x6#4 ∨ familyOf w = 0x7#4 ∨ familyOf w = 0x8#4 ∨ familyOf w = 0x9#4 ∨
    familyOf w = 0xA#4 ∨ familyOf w = 0xB#4 ∨ familyOf w = 0xC#4 ∨ familyOf w = 0xD#4 ∨ familyOf w = 0xE#4 ∨
    familyOf w = 0xF#4 := by
  generalize familyOf w = f
  revert f
  decide

/-- Settles O2: family by family, the fields the decoder reads pack to the word they were read from. -/
theorem encodeInvertsDecode : Obligations.EncodeInvertsDecode := by
  intro w i hd
  rcases familyOf_cases w with h | h | h | h | h | h | h | h | h | h | h | h | h | h | h | h
  · cases (decodeWord_of_family0 h).symm.trans hd
    exact decodeFamily0_isWordOf h
  · cases (decodeWord_of_family1 h).symm.trans hd
    exact ⟨packNnn_of_family h, rfl⟩
  · cases (decodeWord_of_family2 h).symm.trans hd
    exact ⟨packNnn_of_family h, rfl⟩
  · cases (decodeWord_of_family3 h).symm.trans hd
    exact ⟨packXkk_of_family h, rfl⟩
  · cases (decodeWord_of_family4 h).symm.trans hd
    exact ⟨packXkk_of_family h, rfl⟩
  · obtain ⟨hsel, rfl⟩ := decodeNeedsZero_ok ((decodeWord_of_family5 h).symm.trans hd)
    exact ⟨packXyn_of_selected h hsel, rfl⟩
  · cases (decodeWord_of_family6 h).symm.trans hd
    exact ⟨packXkk_of_family h, rfl⟩
  · cases (decodeWord_of_family7 h).symm.trans hd
    exact ⟨packXkk_of_family h, rfl⟩
  · exact decodeFamily8_isWordOf h ((decodeWord_of_family8 h).symm.trans hd)
  · obtain ⟨hsel, rfl⟩ := decodeNeedsZero_ok ((decodeWord_of_family9 h).symm.trans hd)
    exact ⟨packXyn_of_selected h hsel, rfl⟩
  · cases (decodeWord_of_familyA h).symm.trans hd
    exact ⟨packNnn_of_family h, rfl⟩
  · cases (decodeWord_of_familyB h).symm.trans hd
    exact ⟨packNnn_of_family h, rfl⟩
  · cases (decodeWord_of_familyC h).symm.trans hd
    exact ⟨packXkk_of_family h, rfl⟩
  · cases (decodeWord_of_familyD h).symm.trans hd
    exact ⟨packXyn_of_selected h (regBits_nOf w), rfl⟩
  · exact decodeFamilyE_isWordOf h ((decodeWord_of_familyE h).symm.trans hd)
  · exact decodeFamilyF_isWordOf h ((decodeWord_of_familyF h).symm.trans hd)

/-- Settles O3: the decoder is evaluated on the bytes of each word. -/
theorem sampleWordsDecode : Obligations.SampleWordsDecode :=
  ⟨rfl, rfl, rfl, rfl, rfl, rfl, rfl, rfl, rfl⟩

end Sys2Proof.Proofs
end

section
/-! What a step can do, said once (30_encoding.md R111, 60_exceptions.md R280, R288): what each error reports, what each
instruction commits, and the ways a step ends. -/

namespace Sys2Proof.Proofs

open Machine Laws

/-! The errors an instruction raises -/

/-- What is true of the state and of ERR_INFO where an error of this kind is raised (R280 to R285). -/
def ErrorFits (s : State) (info : BitVec 32) : ErrorKind → Prop
  | .unknownOpcode => info.toNat < 65536
  | .stackOverflow => s.sp = 16 ∧ info.toNat = (s.pc + 2).toNat
  | .stackUnderflow => s.sp = 0 ∧ info = 0
  | .addressOutOfRange => s.cfg.addrMode = .fault ∧ 4096 ≤ info.toNat
  | .keyOutOfRange => 15 < info.toNat ∧ info.toNat < 256

/-- R72: EA fails in fault mode alone, and at 4096 or above. -/
theorem ea_eq_none_iff {mode : AddrMode} {a : Nat} : ea mode a = none ↔ mode = .fault ∧ 4096 ≤ a := by
  unfold ea
  split
  next h => simp [h]
  next h => cases mode <;> simp [Nat.le_of_not_lt h]

/-- R284: an address that fails and fits ERR_INFO is reported as it is. -/
theorem errorFits_of_ea_none {s : State} {a : Nat} (h : s.ea a = none) (ha : a < 2 ^ 32) :
    ErrorFits s (BitVec.ofNat 32 a) .addressOutOfRange := by
  obtain ⟨hmode, hle⟩ := ea_eq_none_iff.mp h
  exact ⟨hmode, hle.trans_eq (Nat.mod_eq_of_lt ha).symm⟩

/-- R201: so is the first bad address of an access at I. -/
theorem errorFits_of_loadAtI {s : State} {n a : Nat} (hn : n ≤ 4096) (h : s.loadAtI n = .error a) :
    ErrorFits s (BitVec.ofNat 32 a) .addressOutOfRange := by
  obtain ⟨j, hj, rfl, hbad, -⟩ := loadFrom_error h
  have hi := s.i.isLt
  exact errorFits_of_ea_none hbad (by omega)

theorem errorFits_of_storeAtI {s : State} {bs : List Byte} {a : Nat} (hlen : bs.length ≤ 4096)
    (h : s.storeAtI bs = .error a) : ErrorFits s (BitVec.ofNat 32 a) .addressOutOfRange := by
  obtain ⟨j, hj, rfl, hbad, -⟩ := storeFrom_error h
  have hi := s.i.isLt
  exact errorFits_of_ea_none hbad (by omega)

/-- R76: and the address of a fetch that fails. -/
theorem errorFits_of_fetchWord {s : State} {a : Nat} (h : s.fetchWord = .error a) :
    ErrorFits s (BitVec.ofNat 32 a) .addressOutOfRange := by
  have hpc := s.pc.isLt
  cases h0 : s.ea s.pc.toNat with
  | none =>
    cases (fetchWord_of_pc_bad h0).symm.trans h
    exact errorFits_of_ea_none h0 (by omega)
  | some hi =>
    cases h1 : s.ea (s.pc.toNat + 1) with
    | none =>
      cases (fetchWord_of_pc_succ_bad (by simp [h0]) h1).symm.trans h
      exact errorFits_of_ea_none h1 (by omega)
    | some lo => cases (fetchWord_of h0 h1).symm.trans h

/-- R253: a key index is missing exactly above 15. -/
theorem errorFits_of_keyIndex {s : State} {x : Reg} (h : s.keyIndex x = none) :
    ErrorFits s ((s.reg x).setWidth 32) .keyOutOfRange := by
  have hlt := (s.reg x).isLt
  have habove : ¬ (s.reg x).toNat < 16 := fun hkey => by simp [State.keyIndex, hkey] at h
  have hinfo : ((s.reg x).setWidth 32).toNat = (s.reg x).toNat := BitVec.toNat_setWidth_of_le (by decide)
  simp only [ErrorFits, hinfo]
  omega

theorem setWidth_toNat_lt (nnn : Addr) : (nnn.setWidth 32).toNat < 65536 := by
  have hnnn := nnn.isLt
  rw [BitVec.toNat_setWidth_of_le (by decide)]
  omega

/-! What each instruction commits -/

/-- i ends by writing Vx and no flag (R31). -/
def LoadsReg (i : Instr) (x : Reg) : Prop :=
  (∃ kk, i = .ldImm x kk ∨ i = .addImm x kk) ∨
  (∃ y, i = .ldReg x y ∨ i = .orReg x y ∨ i = .andReg x y ∨ i = .xorReg x y) ∨ i = .ldVxDt x

/-- i ends by writing Vx and then the flag (R34). -/
def WritesFlag (i : Instr) (x : Reg) : Prop :=
  ∃ y, i = .addReg x y ∨ i = .sub x y ∨ i = .shr x y ∨ i = .subn x y ∨ i = .shl x y

/-- i ends by the skip rule (R150). -/
def Skips (i : Instr) : Prop :=
  (∃ x kk, i = .seImm x kk ∨ i = .sneImm x kk) ∨ (∃ x y, i = .seReg x y ∨ i = .sneReg x y) ∨
  ∃ x, i = .skp x ∨ i = .sknp x

/-- The state an instruction that does not raise leaves when run from s, instructions with the same writes together. A
value it writes is named where some statement asks for it, and free elsewhere. `exec_effect` ties it to the
instructions. -/
inductive Effect (s : State) : Instr → State → Prop
  | cls : Effect s .cls { s with fb := Vector.replicate 32 0 }.advance
  | ret {j : Fin 16} (hsp : s.sp.val = j.val + 1) : Effect s .ret { s with pc := s.stack[j], sp := j.castSucc }
  | call {j : Fin 16} (nnn : Addr) (hsp : s.sp.val = j.val) :
      Effect s (.call nnn) { s with pc := zext16 nnn, stack := s.stack.set j (s.pc + 2), sp := j.succ }
  | jp (nnn : Addr) : Effect s (.jp nnn) (s.jumpTo (zext16 nnn))
  | jpV0 (nnn : Addr) : Effect s (.jpV0 nnn) (s.jumpTo (s.jumpOffset nnn))
  | skip {i : Instr} (h : Skips i) (c : Bool) : Effect s i (s.skipIf c)
  | load {i : Instr} {x : Reg} (h : LoadsReg i x) (b : Byte) : Effect s i (s.finish x b)
  | flag {i : Instr} {x : Reg} (h : WritesFlag i x) (b f : Byte) : Effect s i (s.finishFlag x b f)
  | rnd (x : Reg) (kk b : Byte) (g : Nat) : Effect s (.rnd x kk) ({ s with rngs := g }.finish x b)
  | drw (x y : Reg) (n : Fin 16) (bs : List Byte) : Effect s (.drw x y n) (drawn s x y bs)
  | ldVxK (x : Reg) : Effect s (.ldVxK x) (armed s x)
  | ldDtVx (x : Reg) : Effect s (.ldDtVx x) { s with dt := s.reg x }.advance
  | ldStVx (x : Reg) : Effect s (.ldStVx x) { s with st := s.reg x }.advance
  | ldI (nnn : Addr) : Effect s (.ldI nnn) (s.finishI (zext16 nnn))
  | ldF (x : Reg) (val : Word) : Effect s (.ldF x) (s.finishI val)
  | addI (x : Reg) (val : Word) : Effect s (.addI x) (s.finishI val)
  | addIFlag (x : Reg) (f : Byte) (val : Word) (h : s.cfg.fx1eVf = true) :
      Effect s (.addI x) ((s.setFlag f).finishI val)
  | ldB {x : Reg} {m : Memory} (h : s.storeAtI (bcdDigits (s.reg x)) = .ok m) :
      Effect s (.ldB x) { s with mem := m }.advance
  | ldMemVx {x : Reg} {m : Memory} (h : s.storeAtI (s.regsUpTo x) = .ok m) :
      Effect s (.ldMemVx x) { s with mem := m }.advance
  | ldVxMem {x : Reg} {bs : List Byte} (h : s.loadAtI (x.val + 1) = .ok bs) :
      Effect s (.ldVxMem x) { s with v := setRegsFrom s.v 0 bs }.advance

/-- r is the raise of an error that fits s, or a next state that i commits from s. -/
def RaisesOrCommits (i : Instr) (s : State) (r : Result) : Prop :=
  (∃ kind info, ErrorFits s info kind ∧ r = .next (s.raise kind info)) ∨ ∃ t, Effect s i t ∧ r = .next t

theorem RaisesOrCommits.commit {i : Instr} {s t : State} (h : Effect s i t) : RaisesOrCommits i s (.next t) :=
  .inr ⟨t, h, rfl⟩

theorem RaisesOrCommits.raise {i : Instr} {s : State} {kind : ErrorKind} {info : BitVec 32}
    (h : ErrorFits s info kind) : RaisesOrCommits i s (.next (s.raise kind info)) :=
  .inl ⟨kind, info, h, rfl⟩

/-- A stack pointer other than 0 is one past a slot, the one a pop reads (R41). -/
theorem top_slot_of_sp {s : State} (h : s.sp ≠ 0) : ∃ j : Fin 16, s.sp.val = j.val + 1 := by
  obtain ⟨j, hj⟩ := Fin.exists_succ_eq.mpr h
  exact ⟨j, (congrArg Fin.val hj).symm⟩

/-- A stack pointer other than 16 is the index of a slot, the one a push writes (R40). -/
theorem free_slot_of_sp {s : State} (h : s.sp ≠ 16) : ∃ j : Fin 16, s.sp.val = j.val := by
  obtain ⟨j, hj⟩ := Fin.exists_castSucc_eq.mpr h
  exact ⟨j, (congrArg Fin.val hj).symm⟩

theorem exec_ret_effect (s : State) : RaisesOrCommits .ret s (exec .ret s) := by
  by_cases h : s.sp = 0
  · rw [exec_ret_of_empty h]
    exact .raise (kind := .stackUnderflow) ⟨h, rfl⟩
  · obtain ⟨j, hsp⟩ := top_slot_of_sp h
    rw [exec_ret_of_sp hsp]
    exact .commit (.ret hsp)

theorem exec_call_effect (nnn : Addr) (s : State) : RaisesOrCommits (.call nnn) s (exec (.call nnn) s) := by
  by_cases h : s.sp = 16
  · rw [exec_call_of_full h]
    exact .raise (kind := .stackOverflow) ⟨h, BitVec.toNat_setWidth_of_le (by decide)⟩
  · obtain ⟨j, hsp⟩ := free_slot_of_sp h
    rw [exec_call_of_sp hsp]
    exact .commit (.call nnn hsp)

theorem exec_drw_effect (x y : Reg) (n : Fin 16) (s : State) :
    RaisesOrCommits (.drw x y n) s (exec (.drw x y n) s) := by
  cases h : s.loadAtI n.val with
  | ok bs =>
    rw [exec_drw_of_ok h]
    exact .commit (.drw x y n bs)
  | error a =>
    simp only [exec, execDrw, h]
    exact .raise (errorFits_of_loadAtI (by omega) h)

theorem exec_skp_effect (x : Reg) (s : State) : RaisesOrCommits (.skp x) s (exec (.skp x) s) := by
  cases h : s.keyIndex x <;> simp only [exec, execSkp, h]
  case some key => exact .commit (.skip (.inr (.inr ⟨x, .inl rfl⟩)) _)
  case none => exact .raise (errorFits_of_keyIndex h)

theorem exec_sknp_effect (x : Reg) (s : State) : RaisesOrCommits (.sknp x) s (exec (.sknp x) s) := by
  cases h : s.keyIndex x <;> simp only [exec, execSknp, h]
  case some key => exact .commit (.skip (.inr (.inr ⟨x, .inr rfl⟩)) _)
  case none => exact .raise (errorFits_of_keyIndex h)

theorem exec_addI_effect (x : Reg) (s : State) : RaisesOrCommits (.addI x) s (exec (.addI x) s) := by
  cases h : s.cfg.fx1eVf with
  | false =>
    rw [exec_addI_of_keepsVf h]
    exact .commit (.addI x _)
  | true =>
    rw [exec_addI_of_writesVf h]
    exact .commit (.addIFlag x _ _ h)

theorem exec_ldB_effect (x : Reg) (s : State) : RaisesOrCommits (.ldB x) s (exec (.ldB x) s) := by
  simp only [exec, execLdB]
  cases h : s.storeAtI (bcdDigits (s.reg x)) with
  | ok m =>
    rw [storeAndAdvance_of_ok h]
    exact .commit (.ldB h)
  | error a =>
    rw [storeAndAdvance_of_error h]
    exact .raise (errorFits_of_storeAtI (by rw [bcdDigits_length]; omega) h)

theorem exec_ldMemVx_effect (x : Reg) (s : State) : RaisesOrCommits (.ldMemVx x) s (exec (.ldMemVx x) s) := by
  simp only [exec, execLdMemVx]
  cases h : s.storeAtI (s.regsUpTo x) with
  | ok m =>
    rw [storeAndAdvance_of_ok h]
    exact .commit (.ldMemVx h)
  | error a =>
    rw [storeAndAdvance_of_error h]
    exact .raise (errorFits_of_storeAtI (by rw [regsUpTo_length]; omega) h)

theorem exec_ldVxMem_effect (x : Reg) (s : State) : RaisesOrCommits (.ldVxMem x) s (exec (.ldVxMem x) s) := by
  cases h : s.loadAtI (x.val + 1) with
  | ok bs =>
    rw [exec_ldVxMem_of_ok h]
    exact .commit (.ldVxMem h)
  | error a =>
    simp only [exec, execLdVxMem, h]
    exact .raise (errorFits_of_loadAtI (by omega) h)

/-- Every instruction raises an error that fits, or commits its effect. -/
theorem exec_effect (i : Instr) (s : State) : RaisesOrCommits i s (exec i s) := by
  cases i with
  | cls => exact .commit .cls
  | ret => exact exec_ret_effect s
  | sys nnn => exact .raise (kind := .unknownOpcode) (setWidth_toNat_lt nnn)
  | jp nnn => exact .commit (.jp nnn)
  | call nnn => exact exec_call_effect nnn s
  | seImm x kk => exact .commit (.skip (.inl ⟨x, kk, .inl rfl⟩) _)
  | sneImm x kk => exact .commit (.skip (.inl ⟨x, kk, .inr rfl⟩) _)
  | seReg x y => exact .commit (.skip (.inr (.inl ⟨x, y, .inl rfl⟩)) _)
  | sneReg x y => exact .commit (.skip (.inr (.inl ⟨x, y, .inr rfl⟩)) _)
  | ldImm x kk => exact .commit (.load (.inl ⟨kk, .inl rfl⟩) _)
  | addImm x kk => exact .commit (.load (.inl ⟨kk, .inr rfl⟩) _)
  | ldReg x y => exact .commit (.load (.inr (.inl ⟨y, .inl rfl⟩)) _)
  | orReg x y => exact .commit (.load (.inr (.inl ⟨y, .inr (.inl rfl)⟩)) _)
  | andReg x y => exact .commit (.load (.inr (.inl ⟨y, .inr (.inr (.inl rfl))⟩)) _)
  | xorReg x y => exact .commit (.load (.inr (.inl ⟨y, .inr (.inr (.inr rfl))⟩)) _)
  | addReg x y => exact .commit (.flag ⟨y, .inl rfl⟩ _ _)
  | sub x y => exact .commit (.flag ⟨y, .inr (.inl rfl)⟩ _ _)
  | shr x y => exact .commit (.flag ⟨y, .inr (.inr (.inl rfl))⟩ _ _)
  | subn x y => exact .commit (.flag ⟨y, .inr (.inr (.inr (.inl rfl)))⟩ _ _)
  | shl x y => exact .commit (.flag ⟨y, .inr (.inr (.inr (.inr rfl)))⟩ _ _)
  | ldI nnn => exact .commit (.ldI nnn)
  | jpV0 nnn => exact .commit (.jpV0 nnn)
  | rnd x kk => exact .commit (.rnd x kk _ _)
  | drw x y n => exact exec_drw_effect x y n s
  | skp x => exact exec_skp_effect x s
  | sknp x => exact exec_sknp_effect x s
  | ldVxDt x => exact .commit (.load (.inr (.inr rfl)) _)
  | ldVxK x => exact .commit (.ldVxK x)
  | ldDtVx x => exact .commit (.ldDtVx x)
  | ldStVx x => exact .commit (.ldStVx x)
  | addI x => exact exec_addI_effect x s
  | ldF x => exact .commit (.ldF x _)
  | ldB x => exact exec_ldB_effect x s
  | ldMemVx x => exact exec_ldMemVx_effect x s
  | ldVxMem x => exact exec_ldVxMem_effect x s

/-- An instruction that does not raise writes none of the error record, the keypad and the parameters (R9, R45,
R288). -/
theorem Effect.untouched {i : Instr} {s t : State} (h : Effect s i t) :
    t.errCode = s.errCode ∧ t.errPc = s.errPc ∧ t.errInfo = s.errInfo ∧ t.k = s.k ∧ t.cfg = s.cfg := by
  cases h <;> exact ⟨rfl, rfl, rfl, rfl, rfl⟩

/-! The ways a step ends -/

/-- The state after a step of s: s itself under a latched error, the wait step, a raise, or what the decoded instruction
commits, with its word in IR. -/
inductive StepEffect (s : State) : State → Prop
  | latched (he : s.errCode ≠ 0) : StepEffect s s
  | waiting (he : s.errCode = 0) (hk : s.kwait = true) : StepEffect s { s with kprev := s.k }
  | keyTaken (key : Fin 16) (he : s.errCode = 0) (hk : s.kwait = true) :
      StepEffect s ({ s with kprev := s.k, kwait := false }.finish s.kwaitX (BitVec.ofNat 8 key.val))
  | raised {kind : ErrorKind} {info : BitVec 32} (hr : s.Running) (h : ErrorFits s info kind) :
      StepEffect s (s.raise kind info)
  | committed {w : Word} {i : Instr} {u : State} (hr : s.Running) (hf : s.fetchWord = .ok w)
      (hd : decodeWord w = .ok i) (h : Effect s i u) : StepEffect s { u with ir := w }

theorem step_effect_of_waiting {s : State} (he : s.errCode = 0) (hk : s.kwait = true) : StepEffect s s.waitStep := by
  rcases waitStep_cases s with ⟨-, hw⟩ | ⟨key, -, -, hw⟩ <;> rw [hw]
  · exact .waiting he hk
  · exact .keyTaken key he hk

/-- IR is written around an instruction that did not raise, for a running block has no error latched. -/
theorem commitIr_effect {s t : State} {i : Instr} (w : Word) (hr : s.Running) (h : Effect s i t) :
    commitIr w (.next t) = .next { t with ir := w } := by
  obtain ⟨hcode, -⟩ := h.untouched
  exact congrArg Host.Outcome.next (if_pos (hcode.trans hr.left))

/-- The step of a decoded instruction. -/
theorem step_effect_of_decoded {s : State} {w : Word} {i : Instr} (hr : s.Running) (hf : s.fetchWord = .ok w)
    (hd : decodeWord w = .ok i) : ∃ t, step s = .next t ∧ StepEffect s t := by
  rw [step_of_decoded hr hf hd]
  rcases exec_effect i s with ⟨kind, info, hfits, hexec⟩ | ⟨u, heff, hexec⟩ <;> rw [hexec]
  · exact ⟨_, commitIr_raise w s kind info, .raised hr hfits⟩
  · exact ⟨_, commitIr_effect w hr heff, .committed hr hf hd heff⟩

/-- Every step answers a next state, by one of these ways. -/
theorem step_answers (s : State) : ∃ t, step s = .next t ∧ StepEffect s t := by
  rcases step_cases s with ⟨he, hs⟩ | ⟨he, hk, hs⟩ | ⟨hr, a, hf, hs⟩ | ⟨hr, w, e, -, -, hs⟩ | ⟨hr, w, i, hf, hd, -⟩
  · exact ⟨_, hs, .latched he⟩
  · exact ⟨_, hs, step_effect_of_waiting he hk⟩
  · exact ⟨_, hs, .raised hr (errorFits_of_fetchWord hf)⟩
  · have hw := w.isLt
    have hfits : (w.setWidth 32).toNat < 65536 := by rwa [BitVec.toNat_setWidth_of_le (by decide)]
    exact ⟨_, hs, .raised (kind := .unknownOpcode) hr hfits⟩
  · exact step_effect_of_decoded hr hf hd

theorem step_effect {s t : State} (h : step s = .next t) : StepEffect s t := by
  obtain ⟨u, hu, heff⟩ := step_answers s
  cases h.symm.trans hu
  exact heff

end Sys2Proof.Proofs
end

section
/-! Proofs of the invariants (10_state.md R38, R39, R46, R47, 60_exceptions.md R289, 20_memory.md section 1). -/

namespace Sys2Proof.Proofs

open Machine Laws

/-! The invariant, for one step -/

/-- R292: with no error latched, the record of a block whose record tells the truth is empty. -/
theorem errorRecordOk_of_no_error {s : State} (he : s.errCode = 0) (h : s.ErrorRecordOk) :
    s.errPc = 0 ∧ s.errInfo = 0 := by
  rcases h with ⟨-, hpc, hinfo⟩ | ⟨-, -, hkinds⟩
  · exact ⟨hpc, hinfo⟩
  · simp [he] at hkinds

/-- R289: the record of a raise that fits the state tells the truth. -/
theorem errorRecordOk_raise {s : State} {kind : ErrorKind} {info : BitVec 32} (hk : s.kwait = false)
    (h : ErrorFits s info kind) : (s.raise kind info).ErrorRecordOk := by
  refine .inr ⟨rfl, hk, ?_⟩
  cases kind with
  | unknownOpcode => exact .inl ⟨rfl, h⟩
  | stackOverflow => exact .inr (.inl ⟨rfl, h⟩)
  | stackUnderflow => exact .inr (.inr (.inl ⟨rfl, h⟩))
  | addressOutOfRange => exact .inr (.inr (.inr (.inl ⟨rfl, h⟩)))
  | keyOutOfRange => exact .inr (.inr (.inr (.inr ⟨rfl, h⟩)))

/-- Every store keeps memory canonical, and nothing else writes it. -/
theorem Effect.memory_wf {i : Instr} {s t : State} (h : Effect s i t) (hwf : Memory.wf s.cfg s.mem = true) :
    Memory.wf t.cfg t.mem = true := by
  cases h with
  | ldB hstore =>
    obtain ⟨-, -, hkeep⟩ := storeFrom_ok hstore (by rw [bcdDigits_length]; omega)
    exact hkeep hwf
  | ldMemVx hstore =>
    obtain ⟨-, -, hkeep⟩ := storeFrom_ok hstore (by rw [regsUpTo_length]; omega)
    exact hkeep hwf
  | _ => exact hwf

/-- R46, R256: an instruction that leaves a wait pending is an Fx0A, and it armed the wait. -/
theorem Effect.armed_of_kwait {i : Instr} {s t : State} (h : Effect s i t) (hs : s.kwait = false)
    (ht : t.kwait = true) : ∃ x, i = .ldVxK x ∧ t = armed s x := by
  cases h with
  | ldVxK x => exact ⟨x, rfl, rfl⟩
  | _ => exact absurd (hs.symm.trans ht) Bool.false_ne_true

/-- The instruction of a running block keeps the invariant: IR holds the word it was decoded from. -/
theorem inv_of_committed {s u : State} {w : Word} {i : Instr} (hs : s.Inv) (hr : s.Running)
    (hd : decodeWord w = .ok i) (h : Effect s i u) : { u with ir := w }.Inv := by
  obtain ⟨hwf, hrecord, -⟩ := hs
  obtain ⟨hcode, hpc, hinfo, -, -⟩ := h.untouched
  obtain ⟨hpc0, hinfo0⟩ := errorRecordOk_of_no_error hr.left hrecord
  refine ⟨h.memory_wf hwf, .inl ⟨hcode.trans hr.left, hpc.trans hpc0, hinfo.trans hinfo0⟩, fun hk => ?_⟩
  obtain ⟨hword, -⟩ := encodeInvertsDecode w i hd
  obtain ⟨x, rfl, rfl⟩ := h.armed_of_kwait hr.right hk
  exact hword.symm

/-- Settles O12: a raise writes a record that fits, a wait step keeps IR and KWAIT_X, an instruction commits its
word. -/
theorem stepKeepsTheInvariant : Obligations.StepKeepsTheInvariant := by
  intro s t hs hstep
  obtain ⟨hwf, hrecord, hwait⟩ := hs
  cases step_effect hstep with
  | latched => exact ⟨hwf, hrecord, hwait⟩
  | waiting he hk =>
    have hempty := errorRecordOk_of_no_error he hrecord
    exact ⟨hwf, .inl ⟨he, hempty⟩, hwait⟩
  | keyTaken key he hk =>
    have hempty := errorRecordOk_of_no_error he hrecord
    exact ⟨hwf, .inl ⟨he, hempty⟩, nofun⟩
  | raised hr hfits => exact ⟨hwf, errorRecordOk_raise hr.right hfits, hwait⟩
  | committed hr hf hd h => exact inv_of_committed ⟨hwf, hrecord, hwait⟩ hr hd h

/-! The invariant, for the other commands -/

/-- RESET lists nothing in memory, latches no error and awaits no key. -/
theorem resetWith_inv (c : Config) (seed : Nat) : (State.resetWith c seed).Inv :=
  ⟨rfl, .inl ⟨rfl, rfl, rfl⟩, nofun⟩

/-- R90: a ROM that fits is written below 4096. -/
theorem copyRom_inv {s : State} (hs : s.Inv) {rom : List Byte} (h : 0x200 + rom.length ≤ 4096) :
    (s.copyRom rom).Inv := by
  obtain ⟨hwf, hrest⟩ := hs
  refine ⟨wf_writeAll s.cfg _ rom s.mem (fun p hp => ?_) hwf, hrest⟩
  obtain ⟨-, hlt⟩ := mem_span.mp hp
  omega

/-- R314: SKIP empties the record, and where it does, no wait was pending. -/
theorem clearError_inv {s : State} (hs : s.Inv) (he : s.errCode ≠ 0) : s.clearError.Inv := by
  obtain ⟨hwf, ⟨hcode, -⟩ | ⟨-, hk, -⟩, -⟩ := hs
  · exact absurd hcode he
  · exact ⟨hwf, .inl ⟨rfl, rfl, rfl⟩, fun hk' => absurd (hk.symm.trans hk') Bool.false_ne_true⟩

/-- Settles O13: TICK, SET_KEY and OBSERVE write no field the invariant reads; the others have a lemma each. -/
theorem everyCommandKeepsTheInvariant : Obligations.EveryCommandKeepsTheInvariant := by
  intro c s t r hs h
  cases c with
  | reset seed =>
    cases h
    exact resetWith_inv s.cfg seed
  | step =>
    obtain ⟨u, hstep, -⟩ := step_answers s
    cases (command_step_of_step hstep).symm.trans h
    exact stepKeepsTheInvariant s _ hs hstep
  | tick =>
    cases h
    exact hs
  | setKey key pressed =>
    by_cases hkey : key < 16
    · cases (command_setKey_of_key s hkey pressed).symm.trans h
      exact hs
    · cases (command_setKey_of_bad s hkey pressed).symm.trans h
      exact hs
  | loadRom rom =>
    rcases Nat.lt_or_ge 4096 (0x200 + rom.length) with hlen | hlen
    · cases (command_loadRom_of_overflow s hlen).symm.trans h
      exact hs
    · cases (command_loadRom_of_fits s hlen).symm.trans h
      exact copyRom_inv hs hlen
  | skip =>
    by_cases he : s.errCode = 0
    · cases (command_skip_of_no_error he).symm.trans h
      exact hs
    · cases (command_skip_of_error he).symm.trans h
      exact clearError_inv hs he
  | observe =>
    cases h
    exact hs

/-! The bound on pc in fault mode (R38) -/

/-- R72, R76: in fault mode a word is fetched at 0xFFE or below. -/
theorem pc_le_of_fetchWord {s : State} {w : Word} (hmode : s.cfg.addrMode = .fault) (h : s.fetchWord = .ok w) :
    s.pc.toNat ≤ 0xFFE := by
  obtain ⟨hi, lo, -, hlo, -⟩ := fetchWord_ok h
  have hne : ¬ (s.cfg.addrMode = .fault ∧ 4096 ≤ s.pc.toNat + 1) := fun hbad =>
    absurd ((ea_eq_none_iff.mpr hbad).symm.trans hlo) nofun
  have hlt : ¬ 4096 ≤ s.pc.toNat + 1 := fun hle => hne ⟨hmode, hle⟩
  omega

/-- A sequential move from an address that was fetched ends at 0x1000 or below. -/
theorem pc_add_two_le {pc : Word} (h : pc.toNat ≤ 0xFFE) : (pc + 2).toNat ≤ 0x1000 := by
  have htwo : (2 : Word).toNat = 2 := rfl
  rw [BitVec.toNat_add]
  omega

theorem skipIf_pc_le {s : State} (c : Bool) (h : s.pc.toNat ≤ 0xFFE) : (s.skipIf c).pc.toNat ≤ 0x10FE := by
  have hfour : (s.pc + 4).toNat = (s.pc.toNat + 4) % 65536 := BitVec.toNat_add _ _
  have htwo := pc_add_two_le h
  rw [skipIf_pc_eq]
  split <;> omega

theorem zext16_le (nnn : Addr) : (zext16 nnn).toNat ≤ 0xFFF := by
  have hnnn := nnn.isLt
  rw [zext16_toNat]
  omega

/-- R38: the highest target is that of Bnnn, 0xFF + 0xFFF. -/
theorem jumpOffset_le (s : State) (nnn : Addr) : (s.jumpOffset nnn).toNat ≤ 0x10FE := by
  have hv0 := (s.reg 0).isLt
  have hnnn := nnn.isLt
  rw [jumpOffset_toNat]
  omega

/-- Where an instruction fetched at 0xFFE or below leaves pc. -/
theorem Effect.pc_le {i : Instr} {s t : State} (h : Effect s i t) (hpc : s.pc.toNat ≤ 0xFFE)
    (hstack : ∀ j : Fin 16, (s.stack[j]).toNat ≤ 0x1000) : t.pc.toNat ≤ 0x10FE := by
  have hnext := pc_add_two_le hpc
  cases h with
  | ret hsp => exact (hstack _).trans (by decide)
  | call nnn hsp => exact (zext16_le nnn).trans (by decide)
  | jp nnn => exact (zext16_le nnn).trans (by decide)
  | jpV0 nnn => exact jumpOffset_le s nnn
  | skip _ c => exact skipIf_pc_le c hpc
  | ldVxK x => exact hpc.trans (by decide)
  | _ => exact hnext.trans (by decide)

/-- R40: only a call writes a slot, with the address after it. -/
theorem Effect.stack_le {i : Instr} {s t : State} (h : Effect s i t) (hpc : s.pc.toNat ≤ 0xFFE)
    (hstack : ∀ j : Fin 16, (s.stack[j]).toNat ≤ 0x1000) (l : Fin 16) : (t.stack[l]).toNat ≤ 0x1000 := by
  cases h with
  | @call j nnn hsp =>
    have hset : (s.stack.set j (s.pc + 2))[l] = if j.val = l.val then s.pc + 2 else s.stack[l] :=
      Vector.getElem_set j.isLt l.isLt
    simp only [hset]
    split
    · exact pc_add_two_le hpc
    · exact hstack l
  | _ => exact hstack l

/-- Settles O15: a raise keeps pc and the slots, a wait step moves pc by 2 from 0xFFE at most, and an instruction runs
only where both its bytes were fetched. -/
theorem stepKeepsPcBounded : Obligations.StepKeepsPcBounded := by
  intro s t hs hstep
  obtain ⟨hmode, hpc, hstack, hwait⟩ := hs
  cases step_effect hstep with
  | latched | waiting | raised => exact ⟨hmode, hpc, hstack, hwait⟩
  | keyTaken key he hk =>
    have hnext := pc_add_two_le (hwait hk)
    exact ⟨hmode, hnext.trans (by decide), hstack, nofun⟩
  | committed hr hf hd h =>
    have hfetched := pc_le_of_fetchWord hmode hf
    obtain ⟨-, -, -, -, hcfg⟩ := h.untouched
    refine ⟨(congrArg Config.addrMode hcfg).trans hmode, h.pc_le hfetched hstack, h.stack_le hfetched hstack, ?_⟩
    intro hk
    obtain ⟨x, rfl, rfl⟩ := h.armed_of_kwait hr.right hk
    exact hfetched

/-! Reset -/

/-- R320: pc is 0x200, every slot 0, and no key is awaited. -/
theorem resetWith_pcBounded {c : Config} (h : c.addrMode = .fault) (seed : Nat) :
    (State.resetWith c seed).PcBounded := by
  have hpc : (0x200 : Word).toNat ≤ 0x10FE := by decide
  refine ⟨h, hpc, fun j => ?_, nofun⟩
  rw [resetWith_stack]
  decide

/-- Settles O14: `State.reset` is the RESET of the default parameters, whose ADDR_MODE is fault. -/
theorem resetHasTheInvariant : Obligations.ResetHasTheInvariant :=
  ⟨⟨resetWith_inv _ _, resetWith_pcBounded rfl _⟩, fun c seed =>
    ⟨resetWith_inv c seed, fun hmode => resetWith_pcBounded hmode seed⟩⟩

/-! The canonical memory -/

/-- The canonical form of a list of cells, taken apart at its first. -/
theorem wfFrom_cons {c : Config} {lo a : Nat} {b : Byte} {m : Memory} :
    Memory.wfFrom c lo ((a, b) :: m) = true ↔
      lo ≤ a ∧ a < 4096 ∧ b ≠ Memory.unlisted c a ∧ Memory.wfFrom c (a + 1) m = true := by
  simp [Memory.wfFrom, and_assoc]

/-- Below its first address a canonical memory reads as after RESET. -/
theorem read_of_lt {c : Config} {m : Memory} {lo x : Nat} (h : Memory.wfFrom c lo m = true) (hx : x < lo) :
    Memory.read c m x = Memory.unlisted c x := by
  induction m generalizing lo with
  | nil => rfl
  | cons cell m ih =>
    obtain ⟨hle, -, -, hrest⟩ := wfFrom_cons.mp h
    have hne : ¬ cell.1 = x := by omega
    have hcell : Memory.read c (cell :: m) x = Memory.read c m x := by
      simp only [Memory.read, Memory.find, if_neg hne]
    rw [hcell, ih hrest (by omega)]

theorem read_cons_self (c : Config) (a : Nat) (b : Byte) (m : Memory) : Memory.read c ((a, b) :: m) a = b := by
  simp [Memory.read, Memory.find]

theorem read_cons_of_ne (c : Config) {a x : Nat} (b : Byte) (m : Memory) (h : a ≠ x) :
    Memory.read c ((a, b) :: m) x = Memory.read c m x := by
  simp [Memory.read, Memory.find, h]

/-- A memory with a cell differs at it from a canonical memory that starts above it. -/
theorem read_cons_ne_read {c : Config} {lo a : Nat} {b : Byte} {m m' : Memory}
    (h : Memory.wfFrom c lo ((a, b) :: m) = true) (h' : Memory.wfFrom c (a + 1) m' = true) :
    Memory.read c ((a, b) :: m) a ≠ Memory.read c m' a := by
  obtain ⟨-, -, hb, -⟩ := wfFrom_cons.mp h
  rw [read_cons_self, read_of_lt h' (Nat.lt_succ_self a)]
  exact hb

/-- Canonical memories that read alike are equal: the lower of the two first cells would be read in one of them alone,
so both start with the same cell, and the rest follows. -/
theorem wfFrom_unique {c : Config} {m m' : Memory} {lo lo' : Nat} (h : Memory.wfFrom c lo m = true)
    (h' : Memory.wfFrom c lo' m' = true) (hread : ∀ a, a < 4096 → Memory.read c m a = Memory.read c m' a) : m = m' := by
  induction m generalizing m' lo lo' with
  | nil =>
    cases m' with
    | nil => rfl
    | cons cell' m' =>
      obtain ⟨-, hlt, -, -⟩ := wfFrom_cons.mp h'
      exact absurd (hread _ hlt).symm (read_cons_ne_read (m' := []) h' rfl)
  | cons cell m ih =>
    obtain ⟨a, b⟩ := cell
    obtain ⟨-, hlt, hb, hrest⟩ := wfFrom_cons.mp h
    cases m' with
    | nil => exact absurd (hread _ hlt) (read_cons_ne_read (m' := []) h rfl)
    | cons cell' m' =>
      obtain ⟨a', b'⟩ := cell'
      obtain ⟨-, hlt', hb', hrest'⟩ := wfFrom_cons.mp h'
      rcases Nat.lt_trichotomy a a' with hlow | rfl | hhigh
      · exact absurd (hread a hlt) (read_cons_ne_read h (wfFrom_cons.mpr ⟨hlow, hlt', hb', hrest'⟩))
      · have hbyte : b = b' := by simpa only [read_cons_self] using hread a hlt
        have htail : ∀ x, x < 4096 → Memory.read c m x = Memory.read c m' x := by
          intro x hx
          by_cases hxa : a = x
          · subst hxa
            rw [read_of_lt hrest (Nat.lt_succ_self a), read_of_lt hrest' (Nat.lt_succ_self a)]
          · simpa only [read_cons_of_ne c _ _ hxa] using hread x hx
        rw [hbyte, ih hrest hrest' htail]
      · exact absurd (hread a' hlt').symm (read_cons_ne_read h' (wfFrom_cons.mpr ⟨hhigh, hlt, hb, hrest⟩))

/-- Settles O16: by induction on the two lists of cells. -/
theorem canonicalMemoryIsUnique : Obligations.CanonicalMemoryIsUnique :=
  fun _ _ _ h h' hread => wfFrom_unique h h' hread

end Sys2Proof.Proofs
end

section
/-! Proofs of what a whole step may write (10_state.md, 20_memory.md section 5): each field by the instructions named
for it alone. -/

namespace Sys2Proof.Proofs

open Machine Laws

/-! What an instruction writes, field by field -/

section Writes
variable {i : Instr} {s t : State}

/-- R78: the bytes of a store are those at its own addresses. -/
theorem storeAtI_changed {bs : List Byte} {m : Memory} {a : Nat} (hlen : bs.length ≤ 4096) (h : s.storeAtI bs = .ok m)
    (hne : Memory.read s.cfg m a ≠ s.byteAt a) : ∃ j, j < bs.length ∧ s.ea (s.i.toNat + j) = some a := by
  by_contra hnone
  obtain ⟨-, hother, -⟩ := storeFrom_ok h hlen
  exact hne (hother a fun j hj hea => hnone ⟨j, hj, hea⟩)

theorem Effect.of_byteAt {a : Nat} (h : Effect s i t) (hne : t.byteAt a ≠ s.byteAt a) :
    ∃ x, (i = .ldB x ∧ ∃ j, j < 3 ∧ s.ea (s.i.toNat + j) = some a) ∨
      (i = .ldMemVx x ∧ ∃ j, j ≤ x.val ∧ s.ea (s.i.toNat + j) = some a) := by
  cases h with
  | @ldB x m hstore => exact ⟨x, .inl ⟨rfl, storeAtI_changed (by rw [bcdDigits_length]; omega) hstore hne⟩⟩
  | @ldMemVx x m hstore =>
    obtain ⟨j, hj, hea⟩ := storeAtI_changed (by rw [regsUpTo_length]; omega) hstore hne
    rw [regsUpTo_length] at hj
    exact ⟨x, .inr ⟨rfl, j, Nat.le_of_lt_succ hj, hea⟩⟩
  | _ => exact absurd rfl hne

theorem Effect.of_fb (h : Effect s i t) (hne : t.fb ≠ s.fb) : i = .cls ∨ ∃ x y n, i = .drw x y n := by
  cases h with
  | cls => exact .inl rfl
  | drw x y n bs => exact .inr ⟨x, y, n, rfl⟩
  | _ => exact absurd rfl hne

theorem Effect.of_stack (h : Effect s i t) (hne : t.stack ≠ s.stack) : ∃ nnn, i = .call nnn := by
  cases h with
  | call nnn hsp => exact ⟨nnn, rfl⟩
  | _ => exact absurd rfl hne

theorem Effect.of_sp (h : Effect s i t) (hne : t.sp ≠ s.sp) : i = .ret ∨ ∃ nnn, i = .call nnn := by
  cases h with
  | ret hsp => exact .inl rfl
  | call nnn hsp => exact .inr ⟨nnn, rfl⟩
  | _ => exact absurd rfl hne

theorem Effect.of_dt (h : Effect s i t) (hne : t.dt ≠ s.dt) : ∃ x, i = .ldDtVx x ∧ t.dt = s.reg x := by
  cases h with
  | ldDtVx x => exact ⟨x, rfl, rfl⟩
  | _ => exact absurd rfl hne

theorem Effect.of_st (h : Effect s i t) (hne : t.st ≠ s.st) : ∃ x, i = .ldStVx x ∧ t.st = s.reg x := by
  cases h with
  | ldStVx x => exact ⟨x, rfl, rfl⟩
  | _ => exact absurd rfl hne

theorem Effect.of_i (h : Effect s i t) (hne : t.i ≠ s.i) :
    (∃ nnn, i = .ldI nnn) ∨ ∃ x, i = .addI x ∨ i = .ldF x := by
  cases h with
  | ldI nnn => exact .inl ⟨nnn, rfl⟩
  | addI x val => exact .inr ⟨x, .inl rfl⟩
  | addIFlag x f val hcfg => exact .inr ⟨x, .inl rfl⟩
  | ldF x val => exact .inr ⟨x, .inr rfl⟩
  | _ => exact absurd rfl hne

theorem Effect.of_rngs (h : Effect s i t) (hne : t.rngs ≠ s.rngs) : ∃ x kk, i = .rnd x kk := by
  cases h with
  | rnd x kk b g => exact ⟨x, kk, rfl⟩
  | _ => exact absurd rfl hne

/-- R31: a load of VF is one of the instructions that may write it. -/
theorem LoadsReg.mayWriteVf {x : Reg} (h : LoadsReg i x) (hx : x = 15) (c : Config) : MayWriteVf c i := by
  subst hx
  obtain hkk | hy | hdt := h
  · exact .inr (.inr (.inr (.inl (hkk.imp fun _ => Or.imp_right .inl))))
  · exact .inr (.inr (.inr (.inr (.inl hy))))
  · exact .inr (.inr (.inr (.inr (.inr (.inl hdt)))))

/-- R207: Fx65 with x below F loads too few bytes to reach VF. -/
theorem eq_15_of_setRegsFrom {x : Reg} {bs : List Byte} (hlen : bs.length = x.val + 1)
    (hne : (setRegsFrom s.v 0 bs)[(15 : Reg)] ≠ s.v[(15 : Reg)]) : x = 15 := by
  by_contra hx
  have hval : x.val ≠ 15 := fun h => hx (Fin.ext h)
  have hle : bs.length ≤ (15 : Reg).val := by simp only [hlen]; omega
  exact hne (setRegsFrom_zero_of_le s.v hle)

theorem Effect.of_vf (h : Effect s i t) (hne : t.reg 15 ≠ s.reg 15) : MayWriteVf s.cfg i := by
  cases h with
  | @load _ x hload b =>
    have hx : 15 = x := by_contra fun hx => hne (finish_reg_of_ne s b hx)
    exact hload.mayWriteVf hx.symm s.cfg
  | @flag _ x hflag b f => exact .inl ⟨x, hflag⟩
  | rnd x kk b g =>
    obtain rfl : 15 = x := by_contra fun hx => hne (finish_reg_of_ne { s with rngs := g } b hx)
    exact .inr (.inr (.inr (.inl ⟨kk, .inr (.inr rfl)⟩)))
  | drw x y n bs => exact .inr (.inl ⟨x, y, n, rfl⟩)
  | addIFlag x f val hcfg => exact .inr (.inr (.inl ⟨hcfg, x, rfl⟩))
  | ldVxMem hload =>
    obtain ⟨hlen, -⟩ := loadFrom_ok hload
    obtain rfl := eq_15_of_setRegsFrom hlen hne
    exact .inr (.inr (.inr (.inr (.inr (.inr rfl)))))
  | _ => exact absurd rfl hne

end Writes

/-! From the instruction to the step -/

/-- s with the fields of t that a wait step and a raise write: a register, pc, the wait and the error record (R257,
R288). -/
def withIdleFieldsOf (s t : State) : State :=
  { s with v := t.v, pc := t.pc, kwait := t.kwait, kprev := t.kprev, errCode := t.errCode, errPc := t.errPc,
           errInfo := t.errInfo }

/-- t is s but for those fields. -/
def Idle (s t : State) : Prop := t = withIdleFieldsOf s t

theorem Idle.eq_of_field {α : Type} {s t : State} (h : Idle s t) (field : State → α)
    (hkept : field (withIdleFieldsOf s t) = field s) : field t = field s :=
  (congrArg field h).trans hkept

/-- A step is idle, or commits the effect of the instruction it executes and IR. -/
theorem step_idle_or_executes {s t : State} (h : step s = .next t) :
    Idle s t ∨ ∃ i u w, s.Executes i ∧ Effect s i u ∧ t = { u with ir := w } := by
  cases step_effect h with
  | latched | waiting | keyTaken | raised => exact .inl rfl
  | committed hr hf hd heff => exact .inr ⟨_, _, _, ⟨hr, _, hf, hd⟩, heff, rfl⟩

/-- Settles O17: of the steps that are not idle, a store alone changes a byte, and it writes at its own addresses. -/
theorem onlyFx33AndFx55WriteMemory : Obligations.OnlyFx33AndFx55WriteMemory := by
  intro s t a hstep hne
  rcases step_idle_or_executes hstep with h | ⟨i, u, w, hexec, heff, rfl⟩
  · exact absurd (h.eq_of_field (State.byteAt · a) rfl) hne
  · obtain ⟨x, ⟨rfl, hj⟩ | ⟨rfl, hj⟩⟩ := heff.of_byteAt hne
    · exact ⟨x, .inl ⟨hexec, hj⟩⟩
    · exact ⟨x, .inr ⟨hexec, hj⟩⟩

/-- Settles O18: by the instructions that write FB. -/
theorem onlyClsAndDrwWriteTheFramebuffer : Obligations.OnlyClsAndDrwWriteTheFramebuffer := by
  intro s t hstep hne
  rcases step_idle_or_executes hstep with h | ⟨i, u, w, hexec, heff, rfl⟩
  · exact absurd (h.eq_of_field State.fb rfl) hne
  · obtain rfl | ⟨x, y, n, rfl⟩ := heff.of_fb hne
    · exact .inl hexec
    · exact .inr ⟨x, y, n, hexec⟩

/-- Settles O19: by the instructions that write a slot, and those that write SP. -/
theorem onlyCallAndRetTouchTheStack : Obligations.OnlyCallAndRetTouchTheStack := by
  intro s t hstep
  rcases step_idle_or_executes hstep with h | ⟨i, u, w, hexec, heff, rfl⟩
  · exact ⟨absurd (h.eq_of_field State.stack rfl), absurd (h.eq_of_field State.sp rfl)⟩
  · refine ⟨fun hne => ?slot, fun hne => ?sp⟩
    case slot =>
      obtain ⟨nnn, rfl⟩ := heff.of_stack hne
      exact ⟨nnn, hexec⟩
    case sp =>
      obtain rfl | ⟨nnn, rfl⟩ := heff.of_sp hne
      · exact .inl hexec
      · exact .inr ⟨nnn, hexec⟩

/-- Settles O20: nothing writes the keypad or the parameters, and each timer has the one instruction that writes it. -/
theorem stepNeverTicksOrTouchesTheKeypad : Obligations.StepNeverTicksOrTouchesTheKeypad := by
  intro s t hstep
  rcases step_idle_or_executes hstep with h | ⟨i, u, w, hexec, heff, rfl⟩
  · exact ⟨h.eq_of_field State.k rfl, h.eq_of_field State.cfg rfl,
      absurd (h.eq_of_field State.dt rfl), absurd (h.eq_of_field State.st rfl)⟩
  · obtain ⟨-, -, -, hk, hcfg⟩ := heff.untouched
    refine ⟨hk, hcfg, fun hne => ?dt, fun hne => ?st⟩
    case dt =>
      obtain ⟨x, rfl, hval⟩ := heff.of_dt hne
      exact ⟨x, hexec, hval⟩
    case st =>
      obtain ⟨x, rfl, hval⟩ := heff.of_st hne
      exact ⟨x, hexec, hval⟩

/-- Settles O21: by the instructions that write I, and the one that writes RNGS. -/
theorem onlyNamedInstructionsWriteIndexAndRng : Obligations.OnlyNamedInstructionsWriteIndexAndRng := by
  intro s t hstep
  rcases step_idle_or_executes hstep with h | ⟨i, u, w, hexec, heff, rfl⟩
  · exact ⟨absurd (h.eq_of_field State.i rfl), fun _ => h.eq_of_field State.rngs rfl⟩
  · refine ⟨fun hne => ?index, fun hno => ?rng⟩
    case index =>
      obtain ⟨nnn, rfl⟩ | ⟨x, rfl | rfl⟩ := heff.of_i hne
      · exact .inl ⟨nnn, hexec⟩
      · exact .inr ⟨x, .inl hexec⟩
      · exact .inr ⟨x, .inr hexec⟩
    case rng =>
      by_contra hne
      obtain ⟨x, kk, rfl⟩ := heff.of_rngs hne
      exact hno x kk hexec

/-- Settles O22: a wait step writes V[KWAIT_X] alone, and an instruction that writes VF is one of those named. -/
theorem onlyNamedInstructionsWriteVf : Obligations.OnlyNamedInstructionsWriteVf := by
  intro s t hstep hne
  cases step_effect hstep with
  | latched | waiting | raised => exact absurd rfl hne
  | keyTaken key he hk =>
    have hx : 15 = s.kwaitX := by_contra fun hx => hne (finish_reg_of_ne { s with kprev := s.k, kwait := false } _ hx)
    exact .inl ⟨hk, hx.symm⟩
  | committed hr hf hd heff => exact .inr ⟨_, ⟨hr, _, hf, hd⟩, heff.of_vf hne⟩

/-! ST and IR are not read (R42, R47) -/

/-- s with another ST and another IR. -/
def withStIr (s : State) (b : Byte) (w : Word) : State := { s with st := b, ir := w }

/-- u is t but for ST and IR. -/
def SameButStIr (u t : State) : Prop := ∃ b w, u = withStIr t b w

/-- Both answers are next states that differ in ST and IR alone. -/
def SameAnswer (q r : Result) : Prop := ∃ u t, q = .next u ∧ r = .next t ∧ SameButStIr u t

theorem sameAnswer_next {u t : State} (h : SameButStIr u t) : SameAnswer (.next u) (.next t) := ⟨u, t, rfl, rfl, h⟩

section NotRead
variable (s : State) (b : Byte) (w : Word)

theorem sameAnswer_store (bs : List Byte) :
    SameAnswer (.next ((withStIr s b w).storeAndAdvance bs)) (.next (s.storeAndAdvance bs)) := by
  refine sameAnswer_next ?_
  cases h : s.storeAtI bs with
  | ok m =>
    have h' : (withStIr s b w).storeAtI bs = .ok m := h
    rw [storeAndAdvance_of_ok h, storeAndAdvance_of_ok h']
    exact ⟨_, _, rfl⟩
  | error a =>
    have h' : (withStIr s b w).storeAtI bs = .error a := h
    rw [storeAndAdvance_of_error h, storeAndAdvance_of_error h']
    exact ⟨_, _, rfl⟩

/-- No instruction reads ST or IR: what each one branches on is the same in both states. -/
theorem exec_sameAnswer (i : Instr) : SameAnswer (exec i (withStIr s b w)) (exec i s) := by
  cases i with
  | ret =>
    by_cases h : s.sp = 0
    · rw [exec_ret_of_empty h, exec_ret_of_empty (s := withStIr s b w) h]
      exact sameAnswer_next ⟨_, _, rfl⟩
    · obtain ⟨j, hsp⟩ := top_slot_of_sp h
      rw [exec_ret_of_sp hsp, exec_ret_of_sp (s := withStIr s b w) hsp]
      exact sameAnswer_next ⟨_, _, rfl⟩
  | call nnn =>
    by_cases h : s.sp = 16
    · rw [exec_call_of_full h, exec_call_of_full (s := withStIr s b w) h]
      exact sameAnswer_next ⟨_, _, rfl⟩
    · obtain ⟨j, hsp⟩ := free_slot_of_sp h
      rw [exec_call_of_sp hsp, exec_call_of_sp (s := withStIr s b w) hsp]
      exact sameAnswer_next ⟨_, _, rfl⟩
  | drw x y n =>
    have h' : (withStIr s b w).loadAtI n.val = s.loadAtI n.val := rfl
    simp only [exec, execDrw, h']
    cases s.loadAtI n.val <;> exact sameAnswer_next ⟨_, _, rfl⟩
  | skp x =>
    have h' : (withStIr s b w).keyIndex x = s.keyIndex x := rfl
    simp only [exec, execSkp, h']
    cases s.keyIndex x <;> exact sameAnswer_next ⟨_, _, rfl⟩
  | sknp x =>
    have h' : (withStIr s b w).keyIndex x = s.keyIndex x := rfl
    simp only [exec, execSknp, h']
    cases s.keyIndex x <;> exact sameAnswer_next ⟨_, _, rfl⟩
  | addI x =>
    have h' : (withStIr s b w).cfg = s.cfg := rfl
    simp only [exec, execAddI, h']
    split <;> exact sameAnswer_next ⟨_, _, rfl⟩
  | ldB x => exact sameAnswer_store s b w _
  | ldMemVx x => exact sameAnswer_store s b w _
  | ldVxMem x =>
    have h' : (withStIr s b w).loadAtI (x.val + 1) = s.loadAtI (x.val + 1) := rfl
    simp only [exec, execLdVxMem, h']
    cases s.loadAtI (x.val + 1) <;> exact sameAnswer_next ⟨_, _, rfl⟩
  | _ => exact sameAnswer_next ⟨_, _, rfl⟩

/-- Nor does the wait step. -/
theorem waitStep_sameButStIr : SameButStIr (withStIr s b w).waitStep s.waitStep := by
  rcases waitStep_cases s with ⟨hnone, hw⟩ | ⟨key, hnew, hlow, hw⟩ <;> rw [hw]
  · rw [waitStep_of_no_newKey (s := withStIr s b w) hnone]
    exact ⟨_, _, rfl⟩
  · rw [waitStep_of_lowest_newKey (s := withStIr s b w) hnew hlow]
    exact ⟨_, _, rfl⟩

/-- The IR write, on two answers that differ in ST and IR alone. -/
theorem commitIr_sameAnswer {q r : Result} (v : Word) (h : SameAnswer q r) :
    SameAnswer (commitIr v q) (commitIr v r) := by
  obtain ⟨_, t, rfl, rfl, st', ir', rfl⟩ := h
  by_cases he : t.errCode = 0
  · have he' : (withStIr t st' ir').errCode = 0 := he
    simp only [commitIr, if_pos he, if_pos he']
    exact sameAnswer_next ⟨_, _, rfl⟩
  · have he' : ¬ (withStIr t st' ir').errCode = 0 := he
    simp only [commitIr, if_neg he, if_neg he']
    exact sameAnswer_next ⟨_, _, rfl⟩

theorem step_sameAnswer : SameAnswer (step (withStIr s b w)) (step s) := by
  rcases step_cases s with ⟨he, hs⟩ | ⟨he, hk, hs⟩ | ⟨hr, a, hf, -⟩ | ⟨hr, v, e, hf, hd, -⟩ | ⟨hr, v, i, hf, hd, -⟩
  · rw [hs, step_of_latched (s := withStIr s b w) he]
    exact sameAnswer_next ⟨_, _, rfl⟩
  · rw [hs, step_of_waiting (s := withStIr s b w) he hk]
    exact sameAnswer_next (waitStep_sameButStIr s b w)
  · rw [step_of_fetch_error hr hf, step_of_fetch_error (s := withStIr s b w) hr hf]
    exact sameAnswer_next ⟨_, _, rfl⟩
  · rw [step_of_undecoded hr hf hd, step_of_undecoded (s := withStIr s b w) hr hf hd]
    exact sameAnswer_next ⟨_, _, rfl⟩
  · rw [step_of_decoded hr hf hd, step_of_decoded (s := withStIr s b w) hr hf hd]
    exact commitIr_sameAnswer v (exec_sameAnswer s b w i)

end NotRead

/-- Settles O23: by the step of the two states, case by case. -/
theorem soundTimerAndIrAreNeverRead : Obligations.SoundTimerAndIrAreNeverRead := by
  intro s t b w hstep
  obtain ⟨_, t', hu, ht', st', ir', rfl⟩ := step_sameAnswer s b w
  obtain rfl : t' = t := Host.Outcome.next.inj (ht'.symm.trans hstep)
  exact ⟨_, hu, rfl⟩

end Sys2Proof.Proofs
end

section
/-! Proofs across parts: the step and its instruction (R111), EA (R72), a call and its return (40_flow.md), a register
dump and its load (43_index_memory.md), and a dump over the next instruction (20_memory.md R89). -/

namespace Sys2Proof.Proofs

open Machine Laws

/-! The step and its instruction -/

/-- Settles O11: each of the ways a step ends is a next state. -/
theorem everyStepAnswersANextState : Obligations.EveryStepAnswersANextState := by
  intro s
  obtain ⟨t, hstep, -⟩ := step_answers s
  exact ⟨t, hstep⟩

theorem exec_answers (i : Instr) (s : State) : ∃ t, exec i s = .next t := by
  rcases exec_effect i s with ⟨kind, info, -, h⟩ | ⟨t, -, h⟩
  · exact ⟨_, h⟩
  · exact ⟨t, h⟩

/-- Settles O5: the step of a decoded word is the instruction's answer with IR committed. -/
theorem stepRunsDecodedInstruction : Obligations.StepRunsDecodedInstruction := by
  intro s w i hr hf hd
  obtain ⟨t, hexec⟩ := exec_answers i s
  exact ⟨t, hexec, by rw [step_of_decoded hr hf hd, hexec, commitIr]⟩

/-- Settles O8: by the two modes of EA. -/
theorem effectiveAddressIsChecked : Obligations.EffectiveAddressIsChecked :=
  fun a => ⟨fun h _ => ea_of_lt h, fun h => ⟨ea_eq_none_iff.mpr ⟨rfl, h⟩, ea_mask12 a⟩⟩

/-! A call and its return -/

/-- Settles O31: the return pops the slot the call pushed. -/
theorem returnResumesAfterItsCall : Obligations.ReturnResumesAfterItsCall := by
  intro s nnn hfull
  obtain ⟨j, hsp⟩ := free_slot_of_sp hfull
  have hback : j.castSucc = s.sp := Fin.ext hsp.symm
  refine ⟨_, _, exec_call_of_sp hsp nnn, exec_ret_of_sp (j := j) rfl, ?popped, hback, ?frame⟩
  case popped => exact Vector.getElem_set_self j.isLt
  case frame => simp only [hback]

/-! A register dump read back -/

/-- Settles O48: the load reads each register's byte at the address the dump stored it at. -/
theorem dumpThenLoadRestoresRegisters : Obligations.DumpThenLoadRestoresRegisters := by
  intro s x v hin
  obtain ⟨-, hdump⟩ := registerDumpStoresRegisters
  obtain ⟨-, hload⟩ := registerLoadReadsMemory
  obtain ⟨t, ht, hstored, -, hframe, -⟩ := (hdump s x).1 hin
  have hcfg : t.cfg = s.cfg := (congrArg State.cfg hframe).trans rfl
  have hi : t.i = s.i := (congrArg State.i hframe).trans rfl
  have hea (a : Nat) : { t with v := v }.ea a = s.ea a := by simp only [State.ea, hcfg]
  have hin' : InRangeAtI { t with v := v } (x.val + 1) := by
    intro j hj
    rw [hea, hi]
    exact hin j hj
  obtain ⟨u, hu, hread, -⟩ := (hload { t with v := v } x).1 hin'
  refine ⟨t, u, ht, hu, fun y hy => ?_⟩
  obtain ⟨a, ha⟩ := Option.isSome_iff_exists.mp (hin y.val (Nat.lt_succ_of_le hy))
  have ha' : { t with v := v }.ea ({ t with v := v }.i.toNat + y.val) = some a := by rw [hea, hi, ha]
  exact (hread y hy a ha').trans (hstored y hy a ha)

/-- Settles O49: V0 and V1 are stored at I and I + 1, which are pc and pc + 1 of the state after the step. -/
theorem storedBytesAreFetchedNext : Obligations.StoredBytesAreFetchedNext := by
  intro s x ⟨hr, w, hf, hd⟩ hx hi hin
  obtain ⟨-, hdump⟩ := registerDumpStoresRegisters
  obtain ⟨t, ht, hstored, hpc, hframe, -⟩ := (hdump s x).1 hin
  have hcode : t.errCode = 0 := (congrArg State.errCode hframe).trans hr.left
  have hcfg : t.cfg = s.cfg := (congrArg State.cfg hframe).trans rfl
  have hstep : step s = .next { t with ir := w } := by rw [step_of_decoded hr hf hd, ht, commitIr, if_pos hcode]
  have hea (a : Nat) : { t with ir := w }.ea a = s.ea a := by simp only [State.ea, hcfg]
  have hbase : t.pc = s.i := hpc.trans hi.symm
  obtain ⟨a0, h0⟩ := Option.isSome_iff_exists.mp (hin 0 (by omega))
  obtain ⟨a1, h1⟩ := Option.isSome_iff_exists.mp (hin 1 (by omega))
  have hbyte0 : t.byteAt a0 = s.reg 0 := hstored 0 (Fin.zero_le x) a0 h0
  have hbyte1 : t.byteAt a1 = s.reg 1 := hstored 1 hx a1 h1
  refine ⟨_, hstep, hpc, ?_⟩
  have hfetch : { t with ir := w }.fetchWord = .ok (wordOfBytes (t.byteAt a0) (t.byteAt a1)) :=
    fetchWord_of (s := { t with ir := w }) (by rw [hea, hbase]; exact h0) (by rw [hea, hbase]; exact h1)
  rw [hfetch, hbyte0, hbyte1]

end Sys2Proof.Proofs
end
